-- ==== Sys2Proof/Word.lean ====
section
/-! DEFINITION. The words that travel on the ports of the two blocks, and the blocks themselves.
An input word is a vector of two-valued bits and has no other inhabitants (spec/10_state.md R16). -/

namespace Sys2Proof

/-- A binary16 word (spec/30_encoding.md R30). Bit 0 is the least significant bit, bit 15 the sign (R21). -/
abbrev Word16 := BitVec 16

/-- A binary32 word (spec/30_encoding.md R31). Bit 0 is the least significant bit, bit 31 the sign (R21). -/
abbrev Word32 := BitVec 32

/-- The two kinds of block (spec/00_scope.md R1). -/
inductive Block where
  /-- `fp16_encoder`: 32-bit input `f32_bits`, 16-bit output `f16_bits` (R11). -/
  | encoder
  /-- `fp16_decoder`: 16-bit input `f16_bits`, 32-bit output `f32_bits` (R12). -/
  | decoder
  deriving DecidableEq, Repr

/-- Width of the block's one input port (spec/10_state.md R11, R12, R23). -/
def Block.inWidth : Block → Nat
  | .encoder => 32
  | .decoder => 16

/-- A word presented on an input port: the port fixes its width (spec/30_encoding.md R34). -/
inductive PortWord where
  | onEncoder (w : Word32)
  | onDecoder (h : Word16)
  deriving DecidableEq, Repr

/-- A result word read from an output port: `f16` from an `fp16_encoder`, `f32` from an `fp16_decoder`. -/
inductive OutWord where
  | f16 (h : Word16)
  | f32 (w : Word32)
  deriving DecidableEq, Repr

/-- The kind of block whose output port carries the word. -/
def OutWord.block : OutWord → Block
  | .f16 _ => .encoder
  | .f32 _ => .decoder

end Sys2Proof
end

