-- ==== Sys2Proof/Syntax.lean ====
section
/-! DEFINITION. The two operations, one constructor per row of spec/opcode_table.json. -/

namespace Sys2Proof

/-- One evaluation's operation with its operand word. The whole input word is the operand: the rows of the
opcode table have mask 0 and match 0 (spec/30_encoding.md R34), so a constructor's operand is the word itself. -/
inductive Instr where
  /-- ENCODE: the word presented on `fp16_encoder.f32_bits` (spec/41_encode.md R60). -/
  | encode (w : Word32)
  /-- DECODE: the word presented on `fp16_decoder.f16_bits` (spec/42_decode.md R80). -/
  | decode (h : Word16)
  deriving DecidableEq, Repr

end Sys2Proof
end

