-- ==== Sys2Proof/Decode.lean ====
section
/-! DEFINITION. Fields of the two word formats, decompose and compose, the reading of a presented word as an
operation, the encoder back to it, and the case maps of spec/30_encoding.md section 3. -/

namespace Sys2Proof

/-! ### The two formats (spec/30_encoding.md R30, R31; spec/40_helpers.md R50, R51) -/

/-- The three fields of a binary16 word: sign, exponent with bias 15, fraction. -/
structure Fields16 where
  s : BitVec 1
  E : BitVec 5
  F : BitVec 10
  deriving DecidableEq, Repr

/-- The three fields of a binary32 word: sign, exponent with bias 127, fraction. -/
structure Fields32 where
  s : BitVec 1
  E : BitVec 8
  F : BitVec 23
  deriving DecidableEq, Repr

/-- `decompose16(h) = (h[15], h[14:10], h[9:0])` (R50). -/
def decompose16 (h : Word16) : Fields16 :=
  { s := h.extractLsb 15 15, E := h.extractLsb 14 10, F := h.extractLsb 9 0 }

/-- `decompose32(w) = (w[31], w[30:23], w[22:0])` (R50). -/
def decompose32 (w : Word32) : Fields32 :=
  { s := w.extractLsb 31 31, E := w.extractLsb 30 23, F := w.extractLsb 22 0 }

/-- `compose16(s, E, F) = s :: E :: F` (R51). -/
def compose16 (f : Fields16) : Word16 := f.s ++ f.E ++ f.F

/-- `compose32(s, E, F) = s :: E :: F` (R51). -/
def compose32 (f : Fields32) : Word32 := f.s ++ f.E ++ f.F

/-! ### From a presented word to an operation (spec/30_encoding.md R34, R35) -/

/-- The block a word is presented to selects the operation; no bit of the word does (R34). -/
def select : PortWord → Instr
  | .onEncoder w => .encode w
  | .onDecoder h => .decode h

/-- Any number of bits held out to a block, before it is known to be a word of that block's port. -/
structure RawWord where
  block : Block
  nbits : Nat
  bits : Nat
  deriving DecidableEq, Repr

/-- A word on an input port, as a raw word: the port's block, its width and the word's number. -/
def PortWord.raw : PortWord → RawWord
  | .onEncoder w => { block := .encoder, nbits := 32, bits := w.toNat }
  | .onDecoder h => { block := .decoder, nbits := 16, bits := h.toNat }

/-- Why a raw word is no operand. There is no third reason: no pattern of the right width is illegal (R35). -/
inductive DecodeReject where
  /-- Ports carry whole words only: 32 bits into an encoder, 16 into a decoder (spec/20_memory.md R23). -/
  | notThePortWidth
  /-- The number has a bit at or above the stated width; there is no silent truncation (spec/00_scope.md 5.1). -/
  | bitAboveWidth
  deriving DecidableEq, Repr

/-- Bits `hi` down to `lo` of a number whose bit 0 is its least significant bit. -/
def slice (bits hi lo : Nat) : BitVec (hi - lo + 1) := BitVec.ofNat _ (bits >>> lo)

/-- The operation a raw word stands for, its fields at the bit positions of spec/opcode_table.json.
Total: every word of the port's width is an operand (R35), everything else is rejected by name. -/
def decode (r : RawWord) : Except DecodeReject Instr :=
  if r.nbits ≠ r.block.inWidth then .error .notThePortWidth
  else if 2 ^ r.nbits ≤ r.bits then .error .bitAboveWidth
  else match r.block with
    | .encoder => .ok (select (.onEncoder (compose32
        { s := slice r.bits 31 31, E := slice r.bits 30 23, F := slice r.bits 22 0 })))
    | .decoder => .ok (select (.onDecoder (compose16
        { s := slice r.bits 15 15, E := slice r.bits 14 10, F := slice r.bits 9 0 })))

/-- The word of an operation: its fields put at the bit positions of spec/opcode_table.json. -/
def encode : Instr → RawWord
  | .encode w =>
    let f := decompose32 w
    { block := .encoder, nbits := 32, bits := f.s.toNat <<< 31 + f.E.toNat <<< 23 + f.F.toNat }
  | .decode h =>
    let f := decompose16 h
    { block := .decoder, nbits := 16, bits := f.s.toNat <<< 15 + f.E.toNat <<< 10 + f.F.toNat }

/-- The block whose input port is `nbits` wide. -/
def blockOfWidth (nbits : Nat) : Option Block :=
  if nbits = 32 then some .encoder else if nbits = 16 then some .decoder else none

/-- The instruction read from a word of `nbits` bits, numbered as spec/opcode_table.json numbers them. The two
blocks have ports of different widths, so the width says which block the word is presented to. -/
def decodeTableWord (nbits w : Nat) : Option Instr :=
  match blockOfWidth nbits with
  | some b => (decode { block := b, nbits := nbits, bits := w }).toOption
  | none => none

/-! ### The case maps (spec/30_encoding.md section 3; spec/41_encode.md R60; spec/42_decode.md R80) -/

/-- The five cases of ENCODE. -/
inductive EncodeCase where
  | infinityOrNaN
  | overflow
  | tooSmall
  | subnormal
  | normal
  deriving DecidableEq, Repr

/-- The four cases of DECODE. -/
inductive DecodeCase where
  | infinityOrNaN
  | zero
  | subnormal
  | normal
  deriving DecidableEq, Repr

/-- `e = int(E32) − 127 + 15`, a signed integer that is never truncated (spec/40_helpers.md R56). -/
def rebias (E : BitVec 8) : Int := (E.toNat : Int) - 127 + 15

/-- Case selection of ENCODE, the tests in the order of R60. -/
def encodeCase (E : BitVec 8) : EncodeCase :=
  if E = 0xFF#8 then .infinityOrNaN
  else if 31 ≤ rebias E then .overflow
  else if rebias E < -10 then .tooSmall
  else if rebias E ≤ 0 then .subnormal
  else .normal

/-- Case selection of DECODE, the tests in the order of R80. -/
def decodeCase (E : BitVec 5) (F : BitVec 10) : DecodeCase :=
  if E = 0x1F#5 then .infinityOrNaN
  else if E = 0#5 ∧ F = 0#10 then .zero
  else if E = 0#5 then .subnormal
  else .normal

end Sys2Proof
end

