-- ==== Sys2Proof/Machine/Operands.lean ====
section
/-! DEFINITION. How the operands of the case rules are assembled from the fields (spec/30_encoding.md section 4),
and how a result word is put together. Nothing is sign-extended anywhere. -/

namespace Sys2Proof.Machine

/-! ### ENCODE -/

/-- `sig = 2^23 + int(F32)`: the fraction with the implicit leading 1 reinstated (spec/41_encode.md R64). -/
def significand (F : BitVec 23) : Nat := 2 ^ 23 + F.toNat

/-- `sh = 14 − e`, used for `−10 ≤ e ≤ 0` only (R64). -/
def subnormalShift (e : Int) : Nat := (14 - e).toNat

/-- `s :: bits15(p)`: the sign above a packed exponent and fraction word (R64, R65). Used with `p < 2^15` only. -/
def signAbove15 (s : BitVec 1) (p : Nat) : Word16 := s ++ BitVec.ofNat 15 p

/-- `(e << 10) + m`, the packed exponent and fraction word of the normal case, `1 ≤ e ≤ 30` only (R65).
A carry out of `m` reaches the exponent by the addition. -/
def packedWord (e : Int) (m : Nat) : Nat := e.toNat <<< 10 + m

/-- The fraction of an infinity-or-NaN result: `F32[22:13]` with the quiet bit forced on when the whole 23-bit
fraction is not zero (R61; spec/90_conflicts.md C1). -/
def quietedFraction (F : BitVec 23) : BitVec 10 :=
  F.extractLsb 22 13 ||| (if F ≠ 0#23 then 0x200#10 else 0#10)

/-! ### DECODE -/

/-- `F16 :: 0^13`: the fraction in the high bits of the 23-bit field (spec/42_decode.md R81, R84). -/
def widenFraction (F : BitVec 10) : BitVec 23 := F ++ 0#13

/-- The loop of R83: while bit 10 of `m` is 0, double `m` and decrement the working exponent `x`. It runs at most
10 times for the fractions that reach it, and `fuel` counts down from 10. -/
def normalise : (fuel : Nat) → (m : Nat) → (x : Int) → Nat × Int
  | 0, m, x => (m, x)
  | fuel + 1, m, x => if m &&& 0x400 = 0 then normalise fuel (m <<< 1) (x - 1) else (m, x)

/-- `bits8(x + 112)`, used where the sum is between 103 and 142 only (R83, R84). -/
def decodedExponent (x : Int) : BitVec 8 := BitVec.ofNat 8 (x + 112).toNat

end Sys2Proof.Machine
end

