-- ==== Sys2Proof/Machine/Decoder.lean ====
section
/-! DEFINITION. `DECODE : bits16 → bits32`, the function of the block `fp16_decoder` (spec/42_decode.md). -/

namespace Sys2Proof.Machine

/-- Infinity or NaN: the payload is kept whole and no bit is forced (R81). -/
def decodeInfinityOrNaN (s : BitVec 1) (F : BitVec 10) : Word32 :=
  compose32 { s := s, E := 0xFF#8, F := widenFraction F }

/-- Signed zero (R82). -/
def decodeZero (s : BitVec 1) : Word32 := s ++ 0#31

/-- Subnormal in, normal out: the fraction is normalised from working exponent 1 until its leading 1 stands at
bit 10 (R83). -/
def decodeSubnormal (s : BitVec 1) (F : BitVec 10) : Word32 :=
  let (m, x) := normalise 10 F.toNat 1
  compose32 { s := s, E := decodedExponent x, F := widenFraction (BitVec.ofNat 10 (m &&& 0x3FF)) }

/-- Normal: rebias and widen (R84). -/
def decodeNormal (s : BitVec 1) (E : BitVec 5) (F : BitVec 10) : Word32 :=
  compose32 { s := s, E := decodedExponent E.toNat, F := widenFraction F }

/-- `DECODE(h)` (R80). -/
def fp16Decode (h : Word16) : Word32 :=
  let f := decompose16 h
  match decodeCase f.E f.F with
  | .infinityOrNaN => decodeInfinityOrNaN f.s f.F
  | .zero => decodeZero f.s
  | .subnormal => decodeSubnormal f.s f.F
  | .normal => decodeNormal f.s f.E f.F

end Sys2Proof.Machine
end

