-- ==== Sys2Proof/Machine/Flags.lean ====
section
/-! DEFINITION. The hardware has no flag and no condition code (spec/00_scope.md R3; spec/10_state.md R10): no
operation computes or stores one. What stands here is the one computation on single bits that ENCODE makes, the
rounding of spec/40_helpers.md R54, and the classification of R52 with the quiet bit of R53. Neither is an
output of a block (spec/10_state.md R14). -/

namespace Sys2Proof.Machine

/-! ### Round to nearest, ties to even (R54) -/

/-- The bits that stay when the low `k` are dropped. -/
def keptBits (n k : Nat) : Nat := n >>> k

/-- The bit immediately below the truncation point. -/
def roundBit (n k : Nat) : Bool := n.testBit (k - 1)

/-- The OR of all bits below the round bit. -/
def stickyBit (n k : Nat) : Bool := decide (n % 2 ^ (k - 1) ≠ 0)

/-- `inc = r & (st | (q & 1))`. -/
def roundIncrement (n k : Nat) : Nat :=
  (roundBit n k && (stickyBit n k || (keptBits n k).testBit 0)).toNat

/-- `rne(n, k)`: drop the low `k` bits of `n`, rounding to nearest with ties to even; used with `k ≥ 1` only. -/
def rne (n k : Nat) : Nat := keptBits n k + roundIncrement n k

/-! ### Classification (R52, R53) -/

/-- The ten classes of a word. -/
inductive FpClass where
  | positiveZero
  | negativeZero
  | positiveSubnormal
  | negativeSubnormal
  | positiveNormal
  | negativeNormal
  | positiveInfinity
  | negativeInfinity
  | quietNaN
  | signalingNaN
  deriving DecidableEq, Repr

/-- The quiet bit of a binary16 word: its top fraction bit, bit 9 (R53). -/
def quietBit16 (h : Word16) : Bool := h.getLsbD 9

/-- The quiet bit of a binary32 word: its top fraction bit, bit 22 (R53). -/
def quietBit32 (w : Word32) : Bool := w.getLsbD 22

/-- The table of R52, over what it tests: whether the exponent is all ones, whether it is zero, whether the
fraction is zero, the top fraction bit and the sign. -/
def classOf (allOnes expZero fracZero top negative : Bool) : FpClass :=
  if allOnes then
    if fracZero then (if negative then .negativeInfinity else .positiveInfinity)
    else if top then .quietNaN else .signalingNaN
  else if expZero then
    if fracZero then (if negative then .negativeZero else .positiveZero)
    else if negative then .negativeSubnormal else .positiveSubnormal
  else if negative then .negativeNormal else .positiveNormal

/-- The class of a binary16 word (R52). -/
def classify16 (h : Word16) : FpClass :=
  let f := decompose16 h
  classOf (f.E = 0x1F#5) (f.E = 0#5) (f.F = 0#10) (quietBit16 h) (f.s = 1#1)

/-- The class of a binary32 word (R52). -/
def classify32 (w : Word32) : FpClass :=
  let f := decompose32 w
  classOf (f.E = 0xFF#8) (f.E = 0#8) (f.F = 0#23) (quietBit32 w) (f.s = 1#1)

end Sys2Proof.Machine
end

