-- ==== Sys2Proof/Machine/Encoder.lean ====
section
/-! DEFINITION. `ENCODE : bits32 → bits16`, the function of the block `fp16_encoder` (spec/41_encode.md). -/

namespace Sys2Proof.Machine

/-- Infinity or NaN in (R61). -/
def encodeInfinityOrNaN (s : BitVec 1) (F : BitVec 23) : Word16 :=
  compose16 { s := s, E := 0x1F#5, F := quietedFraction F }

/-- Overflow: the infinity of the input's sign (R62). -/
def encodeOverflow (s : BitVec 1) : Word16 := compose16 { s := s, E := 0x1F#5, F := 0#10 }

/-- Too small: the zero of the input's sign (R63). -/
def encodeTooSmall (s : BitVec 1) : Word16 := signAbove15 s 0

/-- Subnormal out, or a zero, or the smallest normal after rounding; the carry is not clamped (R64, R67). -/
def encodeSubnormal (s : BitVec 1) (e : Int) (F : BitVec 23) : Word16 :=
  signAbove15 s (rne (significand F) (subnormalShift e))

/-- Normal out, or infinity after a rounding carry from `e = 30` (R65, R67). -/
def encodeNormal (s : BitVec 1) (e : Int) (F : BitVec 23) : Word16 :=
  signAbove15 s (packedWord e (rne F.toNat 13))

/-- `ENCODE(w)` (R60). -/
def fp16Encode (w : Word32) : Word16 :=
  let f := decompose32 w
  match encodeCase f.E with
  | .infinityOrNaN => encodeInfinityOrNaN f.s f.F
  | .overflow => encodeOverflow f.s
  | .tooSmall => encodeTooSmall f.s
  | .subnormal => encodeSubnormal f.s (rebias f.E) f.F
  | .normal => encodeNormal f.s (rebias f.E) f.F

end Sys2Proof.Machine
end

