-- ==== Sys2Proof/Config.lean ====
section
/-! DEFINITION. What is fixed for a machine: the one open parameter of the spec, and the values it leaves open.
Every size and constant of the two operations is fixed by spec/00_scope.md R7 and stands where it is used;
the rounding direction is not selectable (R3), so no field of this file chooses one. -/

namespace Sys2Proof

/-- `LATENCY` at its reference value: the block is combinational (spec/00_scope.md R8; spec/10_state.md R13).
No rule's result depends on it; the registered blocks of Machine/Registered.lean take it as an argument. -/
def Config.referenceLatency : Nat := 0

/-- FREE VALUE (DESIGN CHOICE, assumption 4): what a pipeline register of a registered `fp16_encoder` holds after
power-up, "unspecified by this spec" (spec/10_state.md R17; spec/70_reset_and_hazards.md R120; spec/93 V2: any
value). The `occasion` numbers one power-up of one instance, so that two instances, or two power-ups of one, need
not start alike; nor need blocks of different `latency`, nor the stages of one block. -/
opaque Config.powerUp16 : (occasion latency stage : Nat) → BitVec 16

/-- FREE VALUE (DESIGN CHOICE, assumption 4): the same of a registered `fp16_decoder`. -/
opaque Config.powerUp32 : (occasion latency stage : Nat) → BitVec 32

/-- DESIGN CHOICE (assumption 3, unsafe): the word on an input port that the environment has not driven yet.
The spec lets the environment hold any word there; all-zero is the case spec/10_state.md R17 describes. -/
def Config.undriven (n : Nat) : BitVec n := 0#n

end Sys2Proof
end

