-- ==== Sys2Proof/Machine/State.lean ====
section
/-! DEFINITION. The state of the bench: the two kinds of block with their input ports, the environment that drives
them, and the outcome of the run.

The BLOCKS have no state (spec/10_state.md R10; spec/00_scope.md R5), and none is given to them here: an output
word is never stored, it is computed from the word on the input port (R13; Machine/Ops.lean). What the fields below
hold is outside the blocks: the words the environment holds on the input ports (R11, R12, R13), the evaluations it
has chosen and not yet made (R18, R36), and the list of output words delivered so far, which is the outcome of a
run (R18). No memory field exists because the hardware has no memory (spec/20_memory.md R20). -/

namespace Sys2Proof.Machine

/-- Why the machine stops with a fault: never. "The table of synchronous exceptions of this hardware is empty"
(spec/60_exceptions.md R110), so the type has no constructor. Safe: no run is cut short by it. -/
inductive Fault where
  deriving DecidableEq, Repr

/-- Why the machine refuses. No operation of either block is ever refused (spec/10_state.md R18). -/
inductive Refusal where
  /-- Raised by `exec` for an operation without a meaning: no arm raises it. Safe. -/
  | notModelled (mnemonic : String)
  /-- Raised by `step` when the next line's operand is `%` and the line before it delivered no word of the width
  that line needs; the grammar excludes such a line (spec/30_encoding.md R36), so there is no evaluation to make.
  Safe: the model stops where the spec gives no meaning (assumption 5). -/
  | previousResultMissing
  deriving DecidableEq, Repr

/-- The operand of a line of stimulus: a word, or `%`, the result of the line before (spec/30_encoding.md R36). -/
inductive Operand (n : Nat) where
  | word (w : BitVec n)
  | previous
  deriving DecidableEq, Repr

/-- One evaluation as the environment asks for it: which operation, on which operand (R18, R36). -/
inductive Request where
  | encode (x : Operand 32)
  | decode (x : Operand 16)
  deriving DecidableEq, Repr

/-- A request addressed to one block of its kind. Any number of each kind exists, told apart by a number of the
model's own, since they are anonymous (spec/10_state.md R15; spec/60_exceptions.md R115). -/
structure Stimulus where
  unit : Nat
  request : Request
  deriving DecidableEq, Repr

/-- The words the environment holds on the input ports of the blocks of one kind, by block number: block numbers
strictly rising, and no entry equal to the word of an undriven port (`Drive.wf` in Machine/Ops.lean). -/
abbrev Drive (n : Nat) := List (Nat × BitVec n)

/-- The bench. -/
structure State where
  /-- The word on `f32_bits` of every `fp16_encoder` (R11). -/
  encoders : Drive 32
  /-- The word on `f16_bits` of every `fp16_decoder` (R12). -/
  decoders : Drive 16
  /-- Which block of the operation's kind the evaluation now being made is addressed to (R15). -/
  target : Nat
  /-- The evaluations the environment has chosen and not yet made, next first (R18). -/
  pending : List Stimulus
  /-- The output words delivered, oldest first: the outcome of the run so far (R18). -/
  results : List OutWord
  deriving DecidableEq, Repr

/-- Right after reset. There is nothing to reset (spec/10_state.md R17; spec/70_reset_and_hazards.md R120): no port
has been driven, no evaluation has been chosen, no word delivered. -/
def State.reset : State :=
  { encoders := [], decoders := [], target := 0, pending := [], results := [] }

/-- What a step finds to do. -/
inductive Fetched where
  /-- The environment's list has ended (R18). -/
  | ended
  /-- The next line's `%` stands for no word of the width it needs. -/
  | previousMissing
  /-- The instruction to run, in the state it runs in. -/
  | run (i : Instr) (s : State)
  deriving DecidableEq, Repr

end Sys2Proof.Machine
end

