-- ==== Sys2Proof/Machine/Ops.lean ====
section
/-! DEFINITION. The named operations over the bench: driving and reading ports, delivering a result, fetching the
next evaluation.

There is no operation that takes an exception and none that returns from one: neither operation raises any, under
any input, and there is no trap entry and no trap return (spec/60_exceptions.md R110, R113). -/

namespace Sys2Proof.Machine

/-! ### Driven words -/

/-- The word on the input port of block `u`. -/
def Drive.read {n : Nat} : Drive n → Nat → BitVec n
  | [], _ => Config.undriven n
  | (k, x) :: rest, u => if k = u then x else Drive.read rest u

/-- Put an entry before the first entry of a higher block number. -/
def Drive.insert {n : Nat} : Drive n → Nat → BitVec n → Drive n
  | [], u, w => [(u, w)]
  | (k, x) :: rest, u, w =>
    if u < k then (u, w) :: (k, x) :: rest else (k, x) :: Drive.insert rest u w

/-- Hold word `w` on the input port of block `u`, keeping the canonical form. -/
def Drive.write {n : Nat} (d : Drive n) (u : Nat) (w : BitVec n) : Drive n :=
  let others := d.filter fun e => e.1 ≠ u
  if w = Config.undriven n then others else Drive.insert others u w

/-- The canonical form: block numbers strictly rising, no entry equal to the word of an undriven port. -/
abbrev Drive.wf {n : Nat} (d : Drive n) : Prop :=
  d.Pairwise (fun a b => a.1 < b.1) ∧ ∀ e ∈ d, e.2 ≠ Config.undriven n

/-! ### Ports (spec/10_state.md R11, R12, R13) -/

/-- `fp16_encoder.f32_bits` of encoder `u`. -/
def State.encoderIn (s : State) (u : Nat) : Word32 := Drive.read s.encoders u

/-- `fp16_decoder.f16_bits` of decoder `u`. -/
def State.decoderIn (s : State) (u : Nat) : Word16 := Drive.read s.decoders u

/-- `fp16_encoder.f16_bits` of encoder `u`: at every moment the block's function of the word on its input (R13).
Reading it has no side effect (spec/20_memory.md R23), and is the reading of a settled output
(spec/70_reset_and_hazards.md R122). -/
def State.encoderOut (s : State) (u : Nat) : Word16 := fp16Encode (s.encoderIn u)

/-- `fp16_decoder.f32_bits` of decoder `u` (R13). -/
def State.decoderOut (s : State) (u : Nat) : Word32 := fp16Decode (s.decoderIn u)

/-- The environment presents `w` on the input of encoder `u`. -/
def State.driveEncoder (s : State) (u : Nat) (w : Word32) : State :=
  { s with encoders := Drive.write s.encoders u w }

/-- The environment presents `h` on the input of decoder `u`. -/
def State.driveDecoder (s : State) (u : Nat) (h : Word16) : State :=
  { s with decoders := Drive.write s.decoders u h }

/-- An output word is delivered: it joins the outcome of the run (R18). -/
def State.deliver (s : State) (r : OutWord) : State := { s with results := s.results ++ [r] }

/-! ### The next evaluation (spec/10_state.md R18; spec/30_encoding.md R36) -/

/-- The result of the line before, if a line has been evaluated. -/
def State.lastResult (s : State) : Option OutWord := s.results.getLast?

/-- The word a request presents, `prev` being the result of the line before: `%` after a DECODE line is a 32-bit
word and may only be the operand of ENCODE, and the other way round (R36). -/
def Request.presented (prev : Option OutWord) : Request → Option PortWord
  | .encode (.word w) => some (.onEncoder w)
  | .decode (.word h) => some (.onDecoder h)
  | .encode .previous =>
    match prev with
    | some (.f32 w) => some (.onEncoder w)
    | some (.f16 _) => none
    | none => none
  | .decode .previous =>
    match prev with
    | some (.f16 h) => some (.onDecoder h)
    | some (.f32 _) => none
    | none => none

/-- Take the next stimulus off the environment's list, find the word it presents, and read the operation off the
block it is presented to. -/
def State.fetch (s : State) : Fetched :=
  match s.pending with
  | [] => .ended
  | st :: rest =>
    match st.request.presented s.lastResult with
    | none => .previousMissing
    | some pw => .run (select pw) { s with pending := rest, target := st.unit }

end Sys2Proof.Machine
end

