-- ==== Sys2Proof/Machine/Evaluate.lean ====
section
/-! DEFINITION. The meanings of the two operations: present the operand on the input port of the addressed block,
read that block's output port, deliver the word (spec/10_state.md R18). -/

namespace Sys2Proof.Machine

/-- ENCODE: one evaluation of an `fp16_encoder` (spec/41_encode.md R60; spec/10_state.md R18). -/
def execEncode (w : Word32) (s : State) : Host.Outcome State Fault Refusal :=
  let t := s.driveEncoder s.target w
  .next (t.deliver (.f16 (t.encoderOut s.target)))

/-- DECODE: one evaluation of an `fp16_decoder` (spec/42_decode.md R80; spec/10_state.md R18). -/
def execDecode (h : Word16) (s : State) : Host.Outcome State Fault Refusal :=
  let t := s.driveDecoder s.target h
  .next (t.deliver (.f32 (t.decoderOut s.target)))

end Sys2Proof.Machine
end

