-- ==== Sys2Proof/Machine/Dispatch.lean ====
section
/-! DEFINITION. One arm per operation. -/

namespace Sys2Proof.Machine

def exec (i : Instr) (s : State) : Host.Outcome State Fault Refusal :=
  match i with
  | .encode w => Sys2Proof.Machine.execEncode w s
  | .decode h => Sys2Proof.Machine.execDecode h s

end Sys2Proof.Machine
end

