-- ==== Sys2Proof/Machine/Step.lean ====
section
/-! DEFINITION. One step of the machine is one evaluation (spec/10_state.md R18). -/

namespace Sys2Proof.Machine

/-- Make the next evaluation of the environment's list. When the list has ended there is none to make and nothing
changes: the ports hold their words and the outputs follow them (R13; assumption 1). -/
def step (s : State) : Host.Outcome State Fault Refusal :=
  match s.fetch with
  | .ended => .next s
  | .previousMissing => .refused .previousResultMissing
  | .run i t => exec i t

/-- `s` with the word of `nbits` bits put first in the environment's list, addressed to the block now addressed,
so that the next step evaluates it (assumption 2). A number of bits that is no port's width, or a number too large
for it, is no word of either block and changes nothing. -/
def State.withFetchWord (s : State) (nbits w : Nat) : State :=
  match decodeTableWord nbits w with
  | some (.encode x) => { s with pending := { unit := s.target, request := .encode (.word x) } :: s.pending }
  | some (.decode x) => { s with pending := { unit := s.target, request := .decode (.word x) } :: s.pending }
  | none => s

end Sys2Proof.Machine
end

