-- ==== Sys2Proof/Machine/Registered.lean ====
section
/-! DEFINITION. Registered implementations of the two blocks: the same word, `LATENCY` clocks later
(spec/00_scope.md R8; spec/10_state.md R13; spec/70_reset_and_hazards.md R120). The machine of this package is the
reference reading, `LATENCY = 0`, and does not use this file; it is here for the statements that say what a
registered block delivers.

DESIGN CHOICE (assumption 4). The spec fixes neither how such an implementation is built inside nor what its
registers hold after power-up. The shape is the model's: a shift of `LATENCY` result registers. So is the way the
open contents are named: one free value for each power-up of an instance, latency and stage. -/

namespace Sys2Proof.Machine

/-- One clock of a block of function `f` (its shape: DESIGN CHOICE, assumption 4) whose pipeline registers hold `stages`, newest first: the registers after
it, and the output word. With no register the output is the function of the present input. -/
def clock {α β : Type} (f : α → β) (stages : List β) (x : α) : List β × β :=
  ((f x :: stages).dropLast, (f x :: stages).getLast (List.cons_ne_nil _ _))

/-- The output words of consecutive clocks with the input words `xs`. -/
def clocks {α β : Type} (f : α → β) : (stages : List β) → (xs : List α) → List β
  | _, [] => []
  | stages, x :: xs => (clock f stages x).2 :: clocks f (clock f stages x).1 xs

/-- The pipeline registers of an `fp16_encoder` after a power-up: unspecified by the spec (spec/10_state.md R17;
R120), so free values. DESIGN CHOICE (assumption 4): `occasion` numbers the power-up of an instance, and nothing
relates the contents of two occasions, latencies or stages. -/
def powerUpEncoder (occasion latency : Nat) : List Word16 :=
  (List.range latency).map (Config.powerUp16 occasion latency)

/-- The pipeline registers of an `fp16_decoder` after a power-up: unspecified by the spec (spec/10_state.md R17;
R120), so free values, named as for `powerUpEncoder`. DESIGN CHOICE (assumption 4). -/
def powerUpDecoder (occasion latency : Nat) : List Word32 :=
  (List.range latency).map (Config.powerUp32 occasion latency)

/-- The output words of a registered `fp16_encoder` from a power-up (its shape: assumption 4). -/
def registeredEncoder (occasion latency : Nat) (inputs : List Word32) : List Word16 :=
  clocks fp16Encode (powerUpEncoder occasion latency) inputs

/-- The output words of a registered `fp16_decoder` from a power-up (its shape: assumption 4). -/
def registeredDecoder (occasion latency : Nat) (inputs : List Word16) : List Word32 :=
  clocks fp16Decode (powerUpDecoder occasion latency) inputs

end Sys2Proof.Machine
end

