-- ==== Sys2Proof/Machine/Values.lean ====
section
/-! DEFINITION. What a word denotes (spec/30_encoding.md R32, R33). No operation computes with these numbers:
the laws of spec/43_laws.md are stated in them. The formulas are IEEE 754's, which the spec itself marks as general
knowledge (spec/93_implementation_defined.md G1; assumption 6). -/

namespace Sys2Proof.Machine

/-- The value of a word: a NaN, an infinity, or an exact number. Both zeros have the value 0; the sign of a zero
is in the word only. -/
inductive FpValue where
  | nan (quiet : Bool)
  | infinity (negative : Bool)
  | number (q : ℚ)
  deriving DecidableEq

/-- The number a finite binary16 word denotes: `(−1)^s × F × 2^−24` when the exponent field is 0, else
`(−1)^s × (1024 + F) × 2^(E − 25)` (R32). Meaningful for `E16 ≠ 0x1F`. -/
def number16 (h : Word16) : ℚ :=
  let f := decompose16 h
  (-1) ^ f.s.toNat *
    (if f.E = 0#5 then (f.F.toNat : ℚ) * 2 ^ (-24 : ℤ)
     else ((1024 + f.F.toNat : ℕ) : ℚ) * 2 ^ ((f.E.toNat : ℤ) - 25))

/-- The number a finite binary32 word denotes: `(−1)^s × F × 2^−149` when the exponent field is 0, else
`(−1)^s × (2^23 + F) × 2^(E − 150)` (R33). Meaningful for `E32 ≠ 0xFF`. -/
def number32 (w : Word32) : ℚ :=
  let f := decompose32 w
  (-1) ^ f.s.toNat *
    (if f.E = 0#8 then (f.F.toNat : ℚ) * 2 ^ (-149 : ℤ)
     else ((2 ^ 23 + f.F.toNat : ℕ) : ℚ) * 2 ^ ((f.E.toNat : ℤ) - 150))

/-- `value16(h)` (R32). -/
def value16 (h : Word16) : FpValue :=
  let f := decompose16 h
  if f.E = 0x1F#5 then
    if f.F = 0#10 then .infinity (f.s = 1#1) else .nan (f.F.getLsbD 9)
  else .number (number16 h)

/-- `value32(w)` (R33). -/
def value32 (w : Word32) : FpValue :=
  let f := decompose32 w
  if f.E = 0xFF#8 then
    if f.F = 0#23 then .infinity (f.s = 1#1) else .nan (f.F.getLsbD 22)
  else .number (number32 w)

end Sys2Proof.Machine
end

