-- ==== Sys2Proof/Machine/Stimulus.lean ====
section
/-! DEFINITION. The stimulus lines of spec/30_encoding.md R36: their content, their text, and what a program's
outcome is. The text form is a notation of the spec for writing evaluations down; it is not an input language of the
hardware (spec/92_eei_decisions.md D10). What reaches the machine is the list of requests. -/

namespace Sys2Proof.Machine

/-! ### Lines -/

/-- One stimulus line: the operation and its operand, the result the line states after `->`, and its comment. -/
inductive Line where
  | encode (x : Operand 32) (expected : Option Word16) (comment : Option (List Char))
  | decode (x : Operand 16) (expected : Option Word32) (comment : Option (List Char))
  deriving DecidableEq, Repr

/-- The evaluation a line denotes. -/
def Line.request : Line → Request
  | .encode x _ _ => .encode x
  | .decode x _ _ => .decode x

/-- The result a line states, if it states one. -/
def Line.expected : Line → Option OutWord
  | .encode _ e _ => e.map .f16
  | .decode _ e _ => e.map .f32

/-- A line's comment, if it has one. -/
def Line.comment : Line → Option (List Char)
  | .encode _ _ c => c
  | .decode _ _ c => c

/-- The kind of block a request is presented to, which is the kind that delivers its result. -/
def Request.block : Request → Block
  | .encode _ => .encoder
  | .decode _ => .decoder

/-- `%` is used as R36 allows: after a line of the other operation. `prev` is the kind of the line before. -/
def Request.bound (prev : Option Block) : Request → Bool
  | .encode (.word _) => true
  | .decode (.word _) => true
  | .encode .previous => prev = some .decoder
  | .decode .previous => prev = some .encoder

/-- Every `%` of a list of requests is used as R36 allows, `prev` being the kind of the line before the list. -/
def boundAll : (prev : Option Block) → List Request → Bool
  | _, [] => true
  | prev, r :: rest => r.bound prev && boundAll (some r.block) rest

/-- The bench with a program's evaluations put after those still pending, all addressed to block `u` of their kind
(one line does not say which block it means: blocks are interchangeable, spec/10_state.md R15). -/
def State.load (s : State) (u : Nat) (p : List Line) : State :=
  { s with pending := s.pending ++ p.map fun l => { unit := u, request := l.request } }

/-! ### Outcome, without ports or steps (spec/10_state.md R18) -/

/-- The output word of an operation. -/
def evaluate : Instr → OutWord
  | .encode w => .f16 (fp16Encode w)
  | .decode h => .f32 (fp16Decode h)

/-- The request that presents an operation's own operand word. -/
def requestOf : Instr → Request
  | .encode w => .encode (.word w)
  | .decode h => .decode (.word h)

/-- The list of output words of a list of requests, `prev` being the result of the line before it; none when a
`%` stands for no word of the width its line needs. -/
def outcome : (prev : Option OutWord) → List Request → Option (List OutWord)
  | _, [] => some []
  | prev, r :: rest =>
    match r.presented prev with
    | none => none
    | some pw => (outcome (some (evaluate (select pw))) rest).map (evaluate (select pw) :: ·)

/-- Every result stated after `->` is the one delivered. -/
def meetsExpected : List Line → List OutWord → Bool
  | [], [] => true
  | l :: ls, r :: rs => (l.expected.isNone || l.expected = some r) && meetsExpected ls rs
  | [], _ :: _ => false
  | _ :: _, [] => false

/-! ### Text (the grammar under R36) -/

/-- A hexadecimal digit, capital for `A` to `F` as the spec writes its words. -/
def hexChar (d : Nat) : Char :=
  ['0', '1', '2', '3', '4', '5', '6', '7', '8', '9', 'A', 'B', 'C', 'D', 'E', 'F'].getD d '0'

/-- The value of a hexadecimal digit, capital or small. -/
def hexValue (c : Char) : Option Nat :=
  let n := c.toNat
  if 48 ≤ n ∧ n ≤ 57 then some (n - 48)
  else if 65 ≤ n ∧ n ≤ 70 then some (n - 55)
  else if 97 ≤ n ∧ n ≤ 102 then some (n - 87)
  else none

/-- `v` as exactly `k` hexadecimal digits, most significant first. -/
def printHex : (k : Nat) → (v : Nat) → List Char
  | 0, _ => []
  | k + 1, v => hexChar (v / 16 ^ k % 16) :: printHex k v

/-- A word of `4 * k` bits: `0x` and exactly `k` hexadecimal digits. -/
def printWord (k : Nat) (w : BitVec (4 * k)) : List Char := '0' :: 'x' :: printHex k w.toNat

/-- An operand: a word or `%`. -/
def printOperand (k : Nat) : Operand (4 * k) → List Char
  | .word w => printWord k w
  | .previous => ['%']

/-- ` -> ` and the stated result, or nothing. -/
def printExpected (k : Nat) : Option (BitVec (4 * k)) → List Char
  | none => []
  | some w => ' ' :: '-' :: '>' :: ' ' :: printWord k w

/-- ` ;` and the comment's text, or nothing. -/
def printComment : Option (List Char) → List Char
  | none => []
  | some t => ' ' :: ';' :: t

/-- The text of a line, one space where the grammar has SP. -/
def printLine : Line → List Char
  | .encode x e c =>
    ['E', 'N', 'C', 'O', 'D', 'E', ' '] ++ printOperand 8 x ++ printExpected 4 e ++ printComment c
  | .decode x e c =>
    ['D', 'E', 'C', 'O', 'D', 'E', ' '] ++ printOperand 4 x ++ printExpected 8 e ++ printComment c

/-- The text of a program: every line ended by a new line. -/
def printProgram : List Line → List Char
  | [] => []
  | l :: ls => printLine l ++ '\n' :: printProgram ls

/-- What follows `lit`, if the text begins with it. -/
def readLiteral : (lit : List Char) → List Char → Option (List Char)
  | [], cs => some cs
  | _ :: _, [] => none
  | l :: ls, c :: cs => if l = c then readLiteral ls cs else none

/-- What follows SP: one space or more (the spec's own programs align their columns; assumption 7). -/
def readSpaces : List Char → Option (List Char)
  | ' ' :: cs => some (cs.dropWhile (· = ' '))
  | _ => none

/-- Exactly `k` hexadecimal digits after the value `acc`, and what follows them. -/
def readHex : (k : Nat) → (acc : Nat) → List Char → Option (Nat × List Char)
  | 0, acc, cs => some (acc, cs)
  | _ + 1, _, [] => none
  | k + 1, acc, c :: cs =>
    match hexValue c with
    | some d => readHex k (16 * acc + d) cs
    | none => none

/-- A word of `4 * k` bits, and what follows it. -/
def readWord (k : Nat) (cs : List Char) : Option (BitVec (4 * k) × List Char) :=
  match readLiteral ['0', 'x'] cs with
  | some rest =>
    match readHex k 0 rest with
    | some (v, rest') => some (BitVec.ofNat (4 * k) v, rest')
    | none => none
  | none => none

/-- An operand, and what follows it. -/
def readOperand (k : Nat) : List Char → Option (Operand (4 * k) × List Char)
  | '%' :: cs => some (.previous, cs)
  | cs => (readWord k cs).map fun r => (.word r.1, r.2)

/-- The comment that ends a line, or the end of the line. -/
def readComment (cs : List Char) : Option (Option (List Char)) :=
  match cs with
  | [] => some none
  | cs =>
    match readSpaces cs with
    | some (';' :: t) => some (some t)
    | _ => none

/-- The stated result, if there is one, and the comment. -/
def readTail (k : Nat) (cs : List Char) : Option (Option (BitVec (4 * k)) × Option (List Char)) :=
  match readSpaces cs with
  | some ('-' :: '>' :: rest) =>
    match readSpaces rest with
    | some rest' =>
      match readWord k rest' with
      | some (w, rest'') => (readComment rest'').map fun c => (some w, c)
      | none => none
    | none => none
  | _ => (readComment cs).map fun c => (none, c)

/-- SP, the operand of `4 * k` bits and the tail with a result of `4 * j` bits. -/
def readRest (k j : Nat) (cs : List Char) :
    Option (Operand (4 * k) × Option (BitVec (4 * j)) × Option (List Char)) :=
  match readSpaces cs with
  | some rest =>
    match readOperand k rest with
    | some (x, rest') => (readTail j rest').map fun t => (x, t.1, t.2)
    | none => none
  | none => none

/-- A line. -/
def readLine (cs : List Char) : Option Line :=
  match readLiteral ['E', 'N', 'C', 'O', 'D', 'E'] cs with
  | some rest => (readRest 8 4 rest).map fun r => .encode r.1 r.2.1 r.2.2
  | none =>
    match readLiteral ['D', 'E', 'C', 'O', 'D', 'E'] cs with
    | some rest => (readRest 4 8 rest).map fun r => .decode r.1 r.2.1 r.2.2
    | none => none

/-- The lines of a text, `cur` being the line so far; none when the last line is not ended by a new line. -/
def splitLines : (cur : List Char) → List Char → Option (List (List Char))
  | [], [] => some []
  | _ :: _, [] => none
  | cur, c :: cs => if c = '\n' then (splitLines [] cs).map (cur :: ·) else splitLines (cur ++ [c]) cs

/-- All the lines of a list, if every one of them reads. -/
def readLines : List (List Char) → Option (List Line)
  | [] => some []
  | cs :: rest =>
    match readLine cs with
    | some l => (readLines rest).map (l :: ·)
    | none => none

/-- A program. -/
def readProgram (cs : List Char) : Option (List Line) :=
  match splitLines [] cs with
  | some ls => readLines ls
  | none => none

end Sys2Proof.Machine
end

