-- ==== Sys2Proof/WellFormed.lean ====
section
/-! DEFINITION. The checks on what is given to the machine. An instruction passes none: every 32-bit word is an operand of ENCODE and
every 16-bit word of DECODE (spec/00_scope.md R4; spec/30_encoding.md R35), and the types have no other inhabitants
(spec/10_state.md R16). What can be ill-formed is a line or a program of stimulus (R36). -/

namespace Sys2Proof

/-- Every instruction is well-formed: there is no check it could fail (R35). -/
def Instr.wellFormed : Instr → Bool
  | .encode _ => true
  | .decode _ => true

end Sys2Proof

namespace Sys2Proof.Machine

/-- A line's comment is text of that line: it holds no new line (the grammar under R36). -/
def Line.wellFormed (l : Line) : Bool := (l.comment.getD []).all (· ≠ '\n')

/-- A program: its lines are well-formed and every `%` stands for a result of the line before, of the width the
line needs; so the first line has no `%` (R36). -/
def programWellFormed (p : List Line) : Bool :=
  p.all Line.wellFormed && boundAll none (p.map Line.request)

end Sys2Proof.Machine
end

