-- ==== Sys2Proof/Safety.lean ====
section
/-! DEFINITION. What counts as a safe run, in the terms the statements use. -/

namespace Sys2Proof.Machine

/-- The invariant of the bench: the driven words are in canonical form, and every `%` still pending stands for a
word of the width its line needs. -/
abbrev State.Inv (s : State) : Prop :=
  Drive.wf s.encoders ∧ Drive.wf s.decoders ∧
    boundAll (s.lastResult.map OutWord.block) (s.pending.map Stimulus.request) = true

/-- The machine answers `k` steps from `s` with a next state and ends in `t`. -/
def RunsTo (k : Nat) (s t : State) : Prop := Host.Core.run core k s = .next t

/-- One evaluation of `i` in `s` completes and delivers `r`: the outcome of the run grows by that one word. -/
def Delivers (i : Instr) (s : State) (r : OutWord) : Prop :=
  ∃ t, exec i s = .next t ∧ t.results = s.results ++ [r]

end Sys2Proof.Machine
end

