-- ==== Sys2Proof/Certificates/Slice0/Obligations.lean ====
section
/-! DEFINITION. The statements for the provers. Words are cut into their fields here by bit positions
(spec/30_encoding.md R30, R31), not by the model's own decompose, wherever a rule gives a result word.

Wherever a statement speaks of numbers (`number16`, `number32`, `value16`, `value32`), they are the formulas of R32 and
R33, which the spec marks as general knowledge (assumption 6). -/

open Sys2Proof Sys2Proof.Machine

/-! ### The bench: invariant, step, frame -/

/-- The state after reset meets the invariant. Its undriven ports are the model's choice (assumption 3). -/
def Obligations.ResetMeetsTheInvariant : Prop := State.reset.Inv

/-- A step from a state that meets the invariant ends in one that does. -/
def Obligations.StepKeepsTheInvariant : Prop :=
  ∀ s t : State, s.Inv → step s = .next t → t.Inv

/-- Where the invariant holds, a step always answers with a next state. At the end of the environment's list that
is the model's idle step (assumption 1); everywhere else it is one evaluation. -/
def Obligations.StepAnswersWhereTheInvariantHolds : Prop :=
  ∀ s : State, s.Inv → ∃ t, step s = .next t

/-- The next request's word, read by the decoder, is the instruction the step runs: with the request taken off the
list and the block it is addressed to named. -/
def Obligations.StepRunsTheDecodedInstruction : Prop :=
  ∀ (s : State) (st : Stimulus) (rest : List Stimulus) (pw : PortWord) (i : Instr),
    s.pending = st :: rest → st.request.presented s.lastResult = some pw → decode pw.raw = .ok i →
      step s = exec i { s with pending := rest, target := st.unit }

/-- What a step does when there is no evaluation to make. At the end of the list nothing changes: the model's choice
(assumption 1). A `%` that stands for no word of the width its line needs is refused by name: the grammar of R36 has
no such line, and the refusal is the model's (assumption 5). -/
def Obligations.StepWithoutAnEvaluation : Prop :=
  (∀ s : State, s.pending = [] → step s = .next s) ∧
  (∀ (s : State) (u : Nat) (rest : List Stimulus),
    s.pending = { unit := u, request := .encode .previous } :: rest →
    (∀ w, s.lastResult ≠ some (.f32 w)) → step s = .refused .previousResultMissing) ∧
  (∀ (s : State) (u : Nat) (rest : List Stimulus),
    s.pending = { unit := u, request := .decode .previous } :: rest →
    (∀ h, s.lastResult ≠ some (.f16 h)) → step s = .refused .previousResultMissing)

/-- A word placed for the next step is the word the next step runs (assumption 2). -/
def Obligations.PlacedWordIsTheOneThatRuns : Prop :=
  ∀ (s : State) (nbits w : Nat) (i : Instr),
    decodeTableWord nbits w = some i → step (s.withFetchWord nbits w) = exec i s

/-- ENCODE completes in every state, on every operand, and this is all it does: the addressed encoder's input
carries the operand and its output the result; the result joins the outcome; every other encoder's ports, every
decoder's ports, the addressed number and the pending requests are as before. -/
def Obligations.EncodeCompletesWithItsFrame : Prop :=
  ∀ (w : Word32) (s : State), ∃ t, exec (.encode w) s = .next t ∧
    t.results = s.results ++ [.f16 (fp16Encode w)] ∧
    t.encoderIn s.target = w ∧ t.encoderOut s.target = fp16Encode w ∧
    (∀ u, u ≠ s.target → t.encoderIn u = s.encoderIn u ∧ t.encoderOut u = s.encoderOut u) ∧
    (∀ u, t.decoderIn u = s.decoderIn u ∧ t.decoderOut u = s.decoderOut u) ∧
    t.decoders = s.decoders ∧ t.target = s.target ∧ t.pending = s.pending

/-- DECODE completes in every state, on every operand, and this is all it does. -/
def Obligations.DecodeCompletesWithItsFrame : Prop :=
  ∀ (h : Word16) (s : State), ∃ t, exec (.decode h) s = .next t ∧
    t.results = s.results ++ [.f32 (fp16Decode h)] ∧
    t.decoderIn s.target = h ∧ t.decoderOut s.target = fp16Decode h ∧
    (∀ u, u ≠ s.target → t.decoderIn u = s.decoderIn u ∧ t.decoderOut u = s.decoderOut u) ∧
    (∀ u, t.encoderIn u = s.encoderIn u ∧ t.encoderOut u = s.encoderOut u) ∧
    t.encoders = s.encoders ∧ t.target = s.target ∧ t.pending = s.pending

/-- No evaluation faults or is refused, on any operand in any state, and there is no fault to raise (R110). -/
def Obligations.NoEvaluationRaisesAnException : Prop :=
  (∀ (i : Instr) (s : State), (∃ t, exec i s = .next t) ∧ (∀ f, exec i s ≠ .fault f) ∧
    (∀ r, exec i s ≠ .refused r)) ∧
  (∀ _ : Fault, False)

/-- Every input pattern has exactly one output, the same in every state of the bench (R4). -/
def Obligations.EveryInputHasOneOutputInEveryState : Prop :=
  (∀ w : Word32, ∃! h : Word16, ∀ s : State, Delivers (.encode w) s (.f16 h)) ∧
  (∀ h : Word16, ∃! w : Word32, ∀ s : State, Delivers (.decode h) s (.f32 w))

/-- Two evaluations on different blocks, made in either order, leave the same words on every port and deliver the
same two words, each its own. Premise: the driven words are in canonical form, which every step keeps. -/
def Obligations.EvaluationsOnDifferentBlocksCommute : Prop :=
  ∀ (s : State) (u v : Nat) (i j : Instr), Drive.wf s.encoders → Drive.wf s.decoders →
    ((requestOf i).block ≠ (requestOf j).block ∨ u ≠ v) →
    ∃ a b t t', RunsTo 2 { s with pending := [⟨u, requestOf i⟩, ⟨v, requestOf j⟩] } t ∧
      RunsTo 2 { s with pending := [⟨v, requestOf j⟩, ⟨u, requestOf i⟩] } t' ∧
      t.encoders = t'.encoders ∧ t.decoders = t'.decoders ∧
      t.results = s.results ++ [a, b] ∧ t'.results = s.results ++ [b, a]

/-- A list of evaluations may be made in any order, on any blocks: each evaluation delivers the same word. -/
def Obligations.AnyOrderGivesEachEvaluationItsWord : Prop :=
  ∀ (s : State) (p q : List (Nat × Instr)), p.Perm q →
    ∃ t t' rs rs',
      RunsTo p.length { s with pending := p.map fun x => ⟨x.1, requestOf x.2⟩ } t ∧
      RunsTo q.length { s with pending := q.map fun x => ⟨x.1, requestOf x.2⟩ } t' ∧
      t.results = s.results ++ rs ∧ t'.results = s.results ++ rs' ∧
      rs.length = p.length ∧ rs'.length = q.length ∧ (p.zip rs).Perm (q.zip rs')

/-- Running all pending requests delivers exactly the words that the requests, read one after the other without
ports or steps, denote, whatever blocks they are addressed to. That a first `%` stands for a word delivered before
the list, `s.lastResult`, is the model's choice (assumption 5). -/
def Obligations.RunDeliversTheOutcome : Prop :=
  ∀ (s : State) (rs : List OutWord),
    outcome s.lastResult (s.pending.map Stimulus.request) = some rs →
    ∃ t, RunsTo s.pending.length s t ∧ t.pending = [] ∧ t.results = s.results ++ rs

/-- A list of requests has an outcome exactly when every `%` is used as R36 allows. That a first `%` stands for a
word delivered before the list, `prev`, is the model's choice (assumption 5). -/
def Obligations.OutcomeExistsExactlyWhenBound : Prop :=
  ∀ (prev : Option OutWord) (rs : List Request),
    (∃ os, outcome prev rs = some os) ↔ boundAll (prev.map OutWord.block) rs = true

/-- A program whose comments hold no new line reads back from its text, in the text form of R36 as the model
completes it (assumption 7, DESIGN CHOICE and DEDUCED): digits printed in capitals, one space or more for SP, nothing
but a comment after a line's last word, every line ended. -/
def Obligations.ProgramReadsBackFromItsText : Prop :=
  ∀ p : List Line, p.all Line.wellFormed = true → readProgram (printProgram p) = some p

/-- A block whose input is all zeros has an all-zero output, and so, right after reset, has every block: that the
undriven inputs are zeros is the model's choice (assumption 3). -/
def Obligations.ZeroInputsGiveZeroOutputs : Prop :=
  (∀ (s : State) (u : Nat), s.encoderIn u = 0x00000000#32 → s.encoderOut u = 0x0000#16) ∧
  (∀ (s : State) (u : Nat), s.decoderIn u = 0x0000#16 → s.decoderOut u = 0x00000000#32) ∧
  (∀ u : Nat, State.reset.encoderOut u = 0x0000#16 ∧ State.reset.decoderOut u = 0x00000000#32)

/-- A registered block of the model's one shape, a shift of `LATENCY` result registers (the model's choice,
assumption 4): from its clock number `LATENCY` on it delivers the function of the word presented `LATENCY` clocks
earlier (R120), at every power-up `o` and whatever its registers held then; it delivers one word per clock. -/
def Obligations.RegisteredBlocksDeliverTheSameWordsLater : Prop :=
  (∀ (o n : Nat) (xs : List Word32), (registeredEncoder o n xs).length = xs.length ∧
    ∀ k w, xs[k]? = some w → k + n < xs.length →
      (registeredEncoder o n xs)[k + n]? = some (fp16Encode w)) ∧
  (∀ (o n : Nat) (xs : List Word16), (registeredDecoder o n xs).length = xs.length ∧
    ∀ k h, xs[k]? = some h → k + n < xs.length →
      (registeredDecoder o n xs)[k + n]? = some (fp16Decode h))

/-! ### Words and operations -/

/-- Decoding an encoded instruction gives it back, for every instruction. -/
def Obligations.DecodeOfEncodeIsTheInstruction : Prop :=
  ∀ i : Instr, decode (encode i) = .ok i

/-- A raw word that decodes is the encoding of what it decodes to. -/
def Obligations.EncodeOfDecodeIsTheWord : Prop :=
  ∀ (r : RawWord) (i : Instr), decode r = .ok i → encode i = r

/-- Every word of the block's input width is an operand of the block's own operation, and no other word is. -/
def Obligations.EveryWholeWordIsAnOperandOfItsBlock : Prop :=
  ∀ r : RawWord,
    ((∃ w, decode r = .ok (.encode w)) ↔ r.block = .encoder ∧ r.nbits = 32 ∧ r.bits < 2 ^ 32) ∧
    ((∃ h, decode r = .ok (.decode h)) ↔ r.block = .decoder ∧ r.nbits = 16 ∧ r.bits < 2 ^ 16)

/-- A few words written out field by field from the spec's tables (R30, R31) decode to their operation. -/
def Obligations.WrittenOutWordsDecode : Prop :=
  decodeTableWord 32 0b11000111011111111111000000000000 = some (.encode 0xC77FF000#32) ∧
  decodeTableWord 32 0b00111111100000000000000000000000 = some (.encode 0x3F800000#32) ∧
  decodeTableWord 16 0b0111101111111111 = some (.decode 0x7BFF#16) ∧
  decodeTableWord 16 0b1111110000000001 = some (.decode 0xFC01#16)

/-- Compose puts the fields one below the other, and compose and decompose are mutual inverses, for both formats
(R51). -/
def Obligations.ComposeAndDecomposeAreMutualInverses : Prop :=
  (∀ s E F, compose16 { s := s, E := E, F := F } = s ++ E ++ F) ∧
  (∀ s E F, compose32 { s := s, E := E, F := F } = s ++ E ++ F) ∧
  (∀ h : Word16, compose16 (decompose16 h) = h) ∧ (∀ f : Fields16, decompose16 (compose16 f) = f) ∧
  (∀ w : Word32, compose32 (decompose32 w) = w) ∧ (∀ f : Fields32, decompose32 (compose32 f) = f)

/-! ### ENCODE, case by case (spec/41_encode.md) -/

/-- R61: an infinity or NaN goes out with the exponent all ones and the top ten fraction bits, the quiet bit forced
on whenever the whole 23-bit fraction is not zero. -/
def Obligations.EncodeOfInfinityOrNaN : Prop :=
  ∀ (w : Word32) (s : State), w.extractLsb 30 23 = 0xFF#8 →
    Delivers (.encode w) s (.f16 (w.extractLsb 31 31 ++ 0b11111#5 ++
      (w.extractLsb 22 13 ||| (if w.extractLsb 22 0 ≠ 0#23 then 0x200#10 else 0x000#10))))

/-- R62: from rebiased exponent 31 on, the signed infinity; such an input is at least `2^16` in magnitude. -/
def Obligations.EncodeOfOverflow : Prop :=
  ∀ (w : Word32) (s : State), w.extractLsb 30 23 ≠ 0xFF#8 →
    31 ≤ ((w.extractLsb 30 23).toNat : Int) - 127 + 15 →
    Delivers (.encode w) s (.f16 (w.extractLsb 31 31 ++ 0b11111#5 ++ 0#10)) ∧
      2 ^ 16 ≤ |number32 w|

/-- R63: below rebiased exponent −10, the signed zero; such an input is below `2^−25` in magnitude, and every
binary32 zero and subnormal is one. -/
def Obligations.EncodeOfTooSmall : Prop :=
  (∀ (w : Word32) (s : State), ((w.extractLsb 30 23).toNat : Int) - 127 + 15 < -10 →
    Delivers (.encode w) s (.f16 (w.extractLsb 31 31 ++ 0#15)) ∧ |number32 w| < 2 ^ (-25 : ℤ)) ∧
  (∀ w : Word32, w.extractLsb 30 23 = 0#8 → ((w.extractLsb 30 23).toNat : Int) - 127 + 15 < -10)

/-- R64: the 24-bit significand shifted right by `14 − e`, rounded to nearest even; the sum reaches `0x400` at most,
and there it is exponent 1 and fraction 0. -/
def Obligations.EncodeOfSubnormalRange : Prop :=
  ∀ (w : Word32) (s : State) (e : Int), e = ((w.extractLsb 30 23).toNat : Int) - 127 + 15 →
    -10 ≤ e → e ≤ 0 →
    let sig := 2 ^ 23 + (w.extractLsb 22 0).toNat
    let sh := (14 - e).toNat
    let q := sig / 2 ^ sh
    let inc := if sig / 2 ^ (sh - 1) % 2 = 1 ∧ (sig % 2 ^ (sh - 1) ≠ 0 ∨ q % 2 = 1) then 1 else 0
    14 ≤ sh ∧ sh ≤ 24 ∧ q + inc ≤ 0x400 ∧
      Delivers (.encode w) s (.f16 (w.extractLsb 31 31 ++ BitVec.ofNat 15 (q + inc))) ∧
      (q + inc = 0x400 → BitVec.ofNat 15 (q + inc) = 0b00001#5 ++ 0#10)

/-- R65: the top ten fraction bits rounded on bit 12 with bits 11 to 0 as sticky, the increment added to the packed
exponent and fraction; the sum is the infinity pattern exactly for inputs of magnitude 65520 or more. -/
def Obligations.EncodeOfNormalRange : Prop :=
  ∀ (w : Word32) (s : State) (e : Int), e = ((w.extractLsb 30 23).toNat : Int) - 127 + 15 →
    1 ≤ e → e ≤ 30 →
    let q := (w.extractLsb 22 13).toNat
    let inc := if w.getLsbD 12 = true ∧ (w.extractLsb 11 0 ≠ 0#12 ∨ w.getLsbD 13 = true) then 1 else 0
    let p := e.toNat * 2 ^ 10 + q + inc
    0x0400 ≤ p ∧ p ≤ 0x7C00 ∧
      Delivers (.encode w) s (.f16 (w.extractLsb 31 31 ++ BitVec.ofNat 15 p)) ∧
      (p = 0x7C00 ↔ e = 30 ∧ q = 0x3FF ∧ inc = 1) ∧ (p = 0x7C00 ↔ 65520 ≤ |number32 w|)

/-- R66: the sign passes through, the low 15 bits depend on the low 31 bits only, and so changing the input's sign
changes the output's sign and nothing else. -/
def Obligations.EncodeSignPassesThrough : Prop :=
  (∀ w : Word32, (fp16Encode w).getLsbD 15 = w.getLsbD 31) ∧
  (∀ w v : Word32, w.extractLsb 30 0 = v.extractLsb 30 0 →
    (fp16Encode w).extractLsb 14 0 = (fp16Encode v).extractLsb 14 0) ∧
  (∀ w : Word32, fp16Encode (w ^^^ 0x80000000#32) = fp16Encode w ^^^ 0x8000#16)

/-- R67: a carry out of the fraction increments the exponent field: from 0 to 1 in the subnormal range, from `e` to
`e + 1` in the normal range, and so from 30 to the infinity pattern. -/
def Obligations.RoundingCarryIsNeverClamped : Prop :=
  ∀ (w : Word32) (e : Int), e = ((w.extractLsb 30 23).toNat : Int) - 127 + 15 →
    (-10 ≤ e → e ≤ 0 → rne (2 ^ 23 + (w.extractLsb 22 0).toNat) (14 - e).toNat = 0x400 →
      fp16Encode w = w.extractLsb 31 31 ++ 0b00001#5 ++ 0#10) ∧
    (1 ≤ e → e ≤ 29 → rne (w.extractLsb 22 0).toNat 13 = 0x400 →
      fp16Encode w = w.extractLsb 31 31 ++ BitVec.ofNat 5 (e.toNat + 1) ++ 0#10) ∧
    (e = 30 → rne (w.extractLsb 22 0).toNat 13 = 0x400 →
      fp16Encode w = w.extractLsb 31 31 ++ 0b11111#5 ++ 0#10)

/-! ### ENCODE against the numbers words denote (spec/43_laws.md) -/

/-- R97: ENCODE is correctly rounded, with the numbers of R32 and R33 (assumption 6). From magnitude 65520 on it gives the infinity pattern; below, the finite
magnitude nearest to the input, and the one with an even last bit when another is as near; the sign passes. -/
def Obligations.EncodeIsCorrectlyRounded : Prop :=
  ∀ w : Word32, w.extractLsb 30 23 ≠ 0xFF#8 →
    (fp16Encode w).getLsbD 15 = w.getLsbD 31 ∧
    (65520 ≤ |number32 w| → (fp16Encode w).extractLsb 14 0 = 0x7C00#15) ∧
    (|number32 w| < 65520 → ∃ m : Nat, m ≤ 0x7BFF ∧ (fp16Encode w).extractLsb 14 0 = BitVec.ofNat 15 m ∧
      ∀ m' : Nat, m' ≤ 0x7BFF →
        |(|number32 w|) - number16 (BitVec.ofNat 16 m)| ≤ |(|number32 w|) - number16 (BitVec.ofNat 16 m')| ∧
        (m' ≠ m → |(|number32 w|) - number16 (BitVec.ofNat 16 m)| =
          |(|number32 w|) - number16 (BitVec.ofNat 16 m')| → m % 2 = 0))

/-- R94: the overflow boundary, by magnitude and by word. -/
def Obligations.OverflowBoundaryIs65520 : Prop :=
  (∀ s : State, Delivers (.encode 0x477FF000#32) s (.f16 0x7C00#16) ∧
    Delivers (.encode 0x477FE000#32) s (.f16 0x7BFF#16)) ∧
  (∀ w : Word32, w.extractLsb 30 23 ≠ 0xFF#8 →
    ((fp16Encode w).extractLsb 14 0 = 0x7C00#15 ↔ 65520 ≤ |number32 w|) ∧
    (65520 ≤ |number32 w| ↔ 0x477FF000 ≤ (w.extractLsb 30 0).toNat ∧ (w.extractLsb 30 0).toNat ≤ 0x7F7FFFFF) ∧
    (65504 < |number32 w| ∧ |number32 w| < 65520 ↔
      0x477FE001 ≤ (w.extractLsb 30 0).toNat ∧ (w.extractLsb 30 0).toNat ≤ 0x477FEFFF) ∧
    (65504 < |number32 w| → |number32 w| < 65520 → (fp16Encode w).extractLsb 14 0 = 0x7BFF#15))

/-- R95: from `2^−25` up to below `2^−14` the low 15 bits are the whole number of `2^−24` nearest to the magnitude,
ties to the even one, 1024 included, which is the smallest normal. -/
def Obligations.SubnormalRangeRoundsToTheNearestMultiple : Prop :=
  (∀ w : Word32, (2 ^ (-25 : ℤ) ≤ |number32 w| ∧ |number32 w| < 2 ^ (-14 : ℤ)) ∧ w.extractLsb 30 23 ≠ 0xFF#8 ↔
    102 ≤ (w.extractLsb 30 23).toNat ∧ (w.extractLsb 30 23).toNat ≤ 112) ∧
  (∀ w : Word32, 102 ≤ (w.extractLsb 30 23).toNat → (w.extractLsb 30 23).toNat ≤ 112 →
    ∃ m : Nat, m ≤ 1024 ∧ (fp16Encode w).extractLsb 14 0 = BitVec.ofNat 15 m ∧
      |(|number32 w|) / 2 ^ (-24 : ℤ) - m| ≤ 1 / 2 ∧
      (|(|number32 w|) / 2 ^ (-24 : ℤ) - m| = 1 / 2 → m % 2 = 0)) ∧
  number16 0x0400#16 = 2 ^ (-14 : ℤ) ∧ number16 0x0400#16 = 1024 * 2 ^ (-24 : ℤ)

/-- R92: encoding keeps the order of finite inputs with finite results. -/
def Obligations.EncodeIsMonotone : Prop :=
  ∀ x y : Word32, x.extractLsb 30 23 ≠ 0xFF#8 → y.extractLsb 30 23 ≠ 0xFF#8 →
    (fp16Encode x).extractLsb 14 10 ≠ 0x1F#5 → (fp16Encode y).extractLsb 14 10 ≠ 0x1F#5 →
    number32 x < number32 y →
    number32 (fp16Decode (fp16Encode x)) ≤ number32 (fp16Decode (fp16Encode y))

/-- R96: infinities encode to infinities, every NaN to a quiet NaN, and DECODE gives a NaN for every NaN. -/
def Obligations.SpecialValuesStaySpecial : Prop :=
  (∀ s : State, Delivers (.encode 0x7F800000#32) s (.f16 0x7C00#16) ∧
    Delivers (.encode 0xFF800000#32) s (.f16 0xFC00#16)) ∧
  (∀ w : Word32, w.extractLsb 30 23 = 0xFF#8 → w.extractLsb 22 0 ≠ 0#23 →
    (fp16Encode w).extractLsb 14 10 = 0x1F#5 ∧ (fp16Encode w).extractLsb 9 0 ≠ 0#10 ∧
      (fp16Encode w).getLsbD 9 = true) ∧
  (∀ h : Word16, h.extractLsb 14 10 = 0x1F#5 → h.extractLsb 9 0 ≠ 0#10 →
    (fp16Decode h).extractLsb 30 23 = 0xFF#8 ∧ (fp16Decode h).extractLsb 22 0 ≠ 0#23)

/-- R93 and R101: the words of the named constants, delivered in every state; and any NaN gives a word that can be
the quiet-NaN constant. -/
def Obligations.NamedConstantsAreDelivered : Prop :=
  (∀ (s : State) (w : Word32), w.extractLsb 30 23 = 0xFF#8 → w.extractLsb 22 0 ≠ 0#23 →
    ∃ h : Word16, Delivers (.encode w) s (.f16 h) ∧ h.extractLsb 14 10 = 0x1F#5 ∧ h.extractLsb 9 0 ≠ 0#10 ∧
      h.getLsbD 9 = true) ∧
  ∀ s : State,
    Delivers (.encode 0x00000000#32) s (.f16 0x0000#16) ∧ Delivers (.encode 0x80000000#32) s (.f16 0x8000#16) ∧
    Delivers (.encode 0x3F800000#32) s (.f16 0x3C00#16) ∧ Delivers (.decode 0x3C00#16) s (.f32 0x3F800000#32) ∧
    Delivers (.encode 0x7F800000#32) s (.f16 0x7C00#16) ∧ Delivers (.encode 0xFF800000#32) s (.f16 0xFC00#16) ∧
    Delivers (.encode 0x477FE000#32) s (.f16 0x7BFF#16) ∧ Delivers (.encode 0xC77FE000#32) s (.f16 0xFBFF#16) ∧
    Delivers (.encode 0x38800000#32) s (.f16 0x0400#16) ∧ Delivers (.encode 0x33800000#32) s (.f16 0x0001#16)

/-! ### DECODE, case by case (spec/42_decode.md) -/

/-- R81: an infinity or NaN goes out with the exponent all ones and the whole fraction in the high bits. -/
def Obligations.DecodeOfInfinityOrNaN : Prop :=
  ∀ (h : Word16) (s : State), h.extractLsb 14 10 = 0x1F#5 →
    Delivers (.decode h) s (.f32 (h.extractLsb 15 15 ++ 0xFF#8 ++ (h.extractLsb 9 0 ++ 0#13)))

/-- R82: a zero goes out as the zero of its sign. -/
def Obligations.DecodeOfZero : Prop :=
  ∀ (h : Word16) (s : State), h.extractLsb 14 10 = 0#5 → h.extractLsb 9 0 = 0#10 →
    Delivers (.decode h) s (.f32 (h.extractLsb 15 15 ++ 0#31))

/-- R83: a subnormal's fraction is doubled until bit 10 is set for the first time, which takes 1 to 10 passes, and
the working exponent, from 1, is decremented at each pass. -/
def Obligations.DecodeOfSubnormal : Prop :=
  ∀ (h : Word16) (s : State), h.extractLsb 14 10 = 0#5 → h.extractLsb 9 0 ≠ 0#10 →
    ∃ n m : Nat, 1 ≤ n ∧ n ≤ 10 ∧ m = (h.extractLsb 9 0).toNat * 2 ^ n ∧
      (∀ k < n, ((h.extractLsb 9 0).toNat * 2 ^ k).testBit 10 = false) ∧ m.testBit 10 = true ∧
      0x400 ≤ m ∧ m ≤ 0x7FF ∧
      Delivers (.decode h) s (.f32 (h.extractLsb 15 15 ++ BitVec.ofNat 8 ((1 - (n : Int) + 112).toNat) ++
        (BitVec.ofNat 10 (m % 0x400) ++ 0#13)))

/-- The closed form the spec derives from R83: with `k` the highest set bit of the fraction, exponent `k + 103` and
the fraction with its leading 1 shifted out at bit 23. -/
def Obligations.DecodeOfSubnormalInClosedForm : Prop :=
  ∀ (h : Word16) (k : Nat), h.extractLsb 14 10 = 0#5 → (h.extractLsb 9 0).toNat.testBit k = true →
    (h.extractLsb 9 0).toNat < 2 ^ (k + 1) →
    fp16Decode h = h.extractLsb 15 15 ++ BitVec.ofNat 8 (k + 103) ++
      BitVec.ofNat 23 ((h.extractLsb 9 0).toNat * 2 ^ (23 - k) % 2 ^ 23)

/-- R84: a normal's exponent is rebased by 112, which lies between 113 and 142, and its fraction widened. -/
def Obligations.DecodeOfNormal : Prop :=
  ∀ (h : Word16) (s : State), h.extractLsb 14 10 ≠ 0#5 → h.extractLsb 14 10 ≠ 0x1F#5 →
    113 ≤ (h.extractLsb 14 10).toNat + 112 ∧ (h.extractLsb 14 10).toNat + 112 ≤ 142 ∧
    Delivers (.decode h) s (.f32 (h.extractLsb 15 15 ++ BitVec.ofNat 8 ((h.extractLsb 14 10).toNat + 112) ++
      (h.extractLsb 9 0 ++ 0#13)))

/-- R85: the sign passes through, the low 31 bits depend on the low 15 bits only, and so changing the input's sign
changes the output's sign and nothing else. -/
def Obligations.DecodeSignPassesThrough : Prop :=
  (∀ h : Word16, (fp16Decode h).getLsbD 31 = h.getLsbD 15) ∧
  (∀ h g : Word16, h.extractLsb 14 0 = g.extractLsb 14 0 →
    (fp16Decode h).extractLsb 30 0 = (fp16Decode g).extractLsb 30 0) ∧
  (∀ h : Word16, fp16Decode (h ^^^ 0x8000#16) = fp16Decode h ^^^ 0x80000000#32)

/-- R86: DECODE is exact. A number or infinity decodes to a word of the same value and sign; a NaN to a NaN of the
same sign, quiet bit and payload. -/
def Obligations.DecodeIsExact : Prop :=
  (∀ h : Word16, (∀ q, value16 h ≠ .nan q) →
    value32 (fp16Decode h) = value16 h ∧ (fp16Decode h).getLsbD 31 = h.getLsbD 15) ∧
  (∀ (h : Word16) (q : Bool), value16 h = .nan q →
    value32 (fp16Decode h) = .nan q ∧ (fp16Decode h).getLsbD 31 = h.getLsbD 15 ∧
      (fp16Decode h).getLsbD 22 = h.getLsbD 9 ∧ (fp16Decode h).extractLsb 22 13 = h.extractLsb 9 0)

/-- R98: DECODE is injective, its image is the stated set of words, and that set has 65536 members. -/
def Obligations.DecodeIsInjectiveWithItsImage : Prop :=
  (∀ h g : Word16, fp16Decode h = fp16Decode g → h = g) ∧
  (∀ v : Word32, (∃ h, fp16Decode h = v) ↔ v.extractLsb 12 0 = 0#13 ∧
    (v.extractLsb 30 23 = 0xFF#8 ∨ v.extractLsb 30 0 = 0#31 ∨
      (113 ≤ (v.extractLsb 30 23).toNat ∧ (v.extractLsb 30 23).toNat ≤ 142) ∨
      (103 ≤ (v.extractLsb 30 23).toNat ∧ (v.extractLsb 30 23).toNat ≤ 112 ∧
        (v.extractLsb 22 0).toNat % 2 ^ (23 - ((v.extractLsb 30 23).toNat - 103)) = 0))) ∧
  (Set.range fp16Decode).ncard = 65536

/-! ### The two operations composed (spec/43_laws.md) -/

/-- R90: every word but a signalling NaN survives DECODE and ENCODE; there are 64514 such words. -/
def Obligations.RoundTripOfEveryWordButSignalingNaN : Prop :=
  (∀ b : Word16, ¬ (b.extractLsb 14 10 = 0x1F#5 ∧ b.extractLsb 9 0 ≠ 0#10 ∧ b.getLsbD 9 = false) →
    fp16Encode (fp16Decode b) = b) ∧
  {b : Word16 | ¬ (b.extractLsb 14 10 = 0x1F#5 ∧ b.extractLsb 9 0 ≠ 0#10 ∧ b.getLsbD 9 = false)}.ncard = 64514

/-- R91: a signalling NaN comes back with the quiet bit set; ENCODE gives exactly the words that are no signalling
NaN; and encoding what was encoded and decoded changes nothing. -/
def Obligations.EncodeNeverGivesASignalingNaN : Prop :=
  (∀ b : Word16, b.extractLsb 14 10 = 0x1F#5 → b.extractLsb 9 0 ≠ 0#10 → b.getLsbD 9 = false →
    fp16Encode (fp16Decode b) = b ||| 0x0200#16) ∧
  (∀ b : Word16, (∃ w, fp16Encode w = b) ↔
    ¬ (b.extractLsb 14 10 = 0x1F#5 ∧ b.extractLsb 9 0 ≠ 0#10 ∧ b.getLsbD 9 = false)) ∧
  (∀ w : Word32, fp16Encode (fp16Decode (fp16Encode w)) = fp16Encode w)

/-- R100: an input that has the value of some finite binary16 word encodes to that word, with its own sign when
the value is zero. -/
def Obligations.ExactInputsAreNotRounded : Prop :=
  ∀ (w : Word32) (h : Word16), w.extractLsb 30 23 ≠ 0xFF#8 → h.extractLsb 14 10 ≠ 0x1F#5 →
    number32 w = number16 h →
    (number16 h ≠ 0 → fp16Encode w = h) ∧ (number16 h = 0 → fp16Encode w = w.extractLsb 31 31 ++ 0#15)

/-- DECODE of a word on any decoder and then ENCODE of `%` on any encoder: the bench delivers the decoded word and
the word it started from, its quiet bit set if it was a signalling NaN. -/
def Obligations.DecodeThenEncodeThroughTheBench : Prop :=
  ∀ (s : State) (u v : Nat) (h : Word16),
    s.pending = [⟨u, .decode (.word h)⟩, ⟨v, .encode .previous⟩] →
    ∃ t, RunsTo 2 s t ∧ t.pending = [] ∧ t.results = s.results ++ [.f32 (fp16Decode h),
      .f16 (if h.extractLsb 14 10 = 0x1F#5 ∧ h.extractLsb 9 0 ≠ 0#10 then h ||| 0x0200#16 else h)]

/-- ENCODE, DECODE of `%`, ENCODE of `%`: the third word delivered is the first. -/
def Obligations.EncodeDecodeEncodeThroughTheBench : Prop :=
  ∀ (s : State) (u v x : Nat) (w : Word32),
    s.pending = [⟨u, .encode (.word w)⟩, ⟨v, .decode .previous⟩, ⟨x, .encode .previous⟩] →
    ∃ t, RunsTo 3 s t ∧ t.pending = [] ∧
      t.results = s.results ++ [.f16 (fp16Encode w), .f32 (fp16Decode (fp16Encode w)), .f16 (fp16Encode w)]

/-! ### Helpers (spec/40_helpers.md) -/

/-- R54: `rne(n, k)` is the kept bits plus the increment, and is the whole number nearest to `n / 2^k`, the even one
of two when `n / 2^k` is halfway between them. -/
def Obligations.RneIsNearestWithTiesToEven : Prop :=
  ∀ n k : Nat, 1 ≤ k →
    rne n k = n / 2 ^ k +
      (if n / 2 ^ (k - 1) % 2 = 1 ∧ (n % 2 ^ (k - 1) ≠ 0 ∨ n / 2 ^ k % 2 = 1) then 1 else 0) ∧
    (∀ m : Int, |(n : ℚ) / 2 ^ k - rne n k| ≤ |(n : ℚ) / 2 ^ k - m|) ∧
    (|(n : ℚ) / 2 ^ k - rne n k| = 1 / 2 → rne n k % 2 = 0)

/-- The table of R55, row by row in its order (and R56 for the first): the result of every integer operation inside
ENCODE and DECODE is exact, lies in its range, and where it is placed in a field it is there unchanged. -/
def Obligations.IntermediateResultsFitTheirFields : Prop :=
  -- `int(E32) − 112`
  (∀ E : BitVec 8, E ≠ 0xFF#8 → rebias E = (E.toNat : Int) - 112 ∧ -112 ≤ rebias E ∧ rebias E ≤ 142) ∧
  -- `14 − e`
  (∀ e : Int, -10 ≤ e → e ≤ 0 →
    (subnormalShift e : Int) = 14 - e ∧ 14 ≤ subnormalShift e ∧ subnormalShift e ≤ 24) ∧
  -- `2^23 + int(F32)`
  (∀ F : BitVec 23, significand F = 2 ^ 23 + F.toNat ∧ 0x800000 ≤ significand F ∧ significand F ≤ 0xFFFFFF) ∧
  -- `sig >> sh`
  (∀ (F : BitVec 23) (sh : Nat), 14 ≤ sh → sh ≤ 24 →
    keptBits (significand F) sh = significand F / 2 ^ sh ∧ keptBits (significand F) sh ≤ 0x3FF ∧
    (sh = 14 → 0x200 ≤ keptBits (significand F) sh) ∧ (sh = 24 → keptBits (significand F) sh = 0)) ∧
  -- `q + inc` of the subnormal case
  (∀ (F : BitVec 23) (e : Int), -10 ≤ e → e ≤ 0 →
    roundIncrement (significand F) (subnormalShift e) ≤ 1 ∧ rne (significand F) (subnormalShift e) ≤ 0x400 ∧
    (BitVec.ofNat 15 (rne (significand F) (subnormalShift e))).toNat =
      keptBits (significand F) (subnormalShift e) + roundIncrement (significand F) (subnormalShift e)) ∧
  -- `F32 >> 13`
  (∀ F : BitVec 23, keptBits F.toNat 13 = F.toNat / 2 ^ 13 ∧ keptBits F.toNat 13 ≤ 0x3FF ∧
    (F.extractLsb 22 13).toNat = keptBits F.toNat 13) ∧
  -- `(e << 10) + q + inc` of the normal case
  (∀ (F : BitVec 23) (e : Int), 1 ≤ e → e ≤ 30 →
    0x0400 ≤ packedWord e (rne F.toNat 13) ∧ packedWord e (rne F.toNat 13) ≤ 0x7C00 ∧
    ((BitVec.ofNat 15 (packedWord e (rne F.toNat 13))).toNat : Int) =
      e * 2 ^ 10 + keptBits F.toNat 13 + roundIncrement F.toNat 13) ∧
  -- `(F32 >> 13) | 0x200`, of a NaN
  (∀ F : BitVec 23, F ≠ 0#23 → (quietedFraction F).toNat = keptBits F.toNat 13 ||| 0x200 ∧
    0x200 ≤ (quietedFraction F).toNat ∧ (quietedFraction F).toNat ≤ 0x3FF) ∧
  -- `int(E16) + 112`
  (∀ E : BitVec 5, E ≠ 0#5 → E ≠ 0x1F#5 → 113 ≤ E.toNat + 112 ∧ E.toNat + 112 ≤ 142 ∧
    (decodedExponent E.toNat).toNat = E.toNat + 112) ∧
  -- `m << 1` repeated `n` times, `1 − n` and `(1 − n) + 112`
  (∀ F : BitVec 10, F ≠ 0#10 → ∃ n : Nat, 1 ≤ n ∧ n ≤ 10 ∧
    normalise 10 F.toNat 1 = (F.toNat * 2 ^ n, 1 - (n : Int)) ∧
    0x400 ≤ F.toNat * 2 ^ n ∧ F.toNat * 2 ^ n ≤ 0x7FF ∧
    -9 ≤ 1 - (n : Int) ∧ 1 - (n : Int) ≤ 0 ∧
    103 ≤ 1 - (n : Int) + 112 ∧ 1 - (n : Int) + 112 ≤ 112 ∧
    ((decodedExponent (1 - (n : Int))).toNat : Int) = 1 - (n : Int) + 112) ∧
  -- `F16 :: 0^13`
  (∀ F : BitVec 10, (widenFraction F).toNat = F.toNat * 2 ^ 13 ∧ (widenFraction F).toNat < 2 ^ 23)

/-- The classes of R52 say what a word denotes, for both formats: zeros are zero, subnormals lie below the smallest
normal, normals from it to the largest finite value, and the sign is the word's top bit. -/
def Obligations.ClassesSayWhatAWordDenotes : Prop :=
  (∀ h : Word16, match classify16 h with
    | .positiveZero => value16 h = .number 0 ∧ h.getLsbD 15 = false
    | .negativeZero => value16 h = .number 0 ∧ h.getLsbD 15 = true
    | .positiveSubnormal => ∃ q, value16 h = .number q ∧ 0 < q ∧ q < 2 ^ (-14 : ℤ)
    | .negativeSubnormal => ∃ q, value16 h = .number q ∧ q < 0 ∧ -2 ^ (-14 : ℤ) < q
    | .positiveNormal => ∃ q, value16 h = .number q ∧ 2 ^ (-14 : ℤ) ≤ q ∧ q ≤ 65504
    | .negativeNormal => ∃ q, value16 h = .number q ∧ q ≤ -2 ^ (-14 : ℤ) ∧ -65504 ≤ q
    | .positiveInfinity => value16 h = .infinity false
    | .negativeInfinity => value16 h = .infinity true
    | .quietNaN => value16 h = .nan true
    | .signalingNaN => value16 h = .nan false) ∧
  (∀ w : Word32, match classify32 w with
    | .positiveZero => value32 w = .number 0 ∧ w.getLsbD 31 = false
    | .negativeZero => value32 w = .number 0 ∧ w.getLsbD 31 = true
    | .positiveSubnormal => ∃ q, value32 w = .number q ∧ 0 < q ∧ q < 2 ^ (-126 : ℤ)
    | .negativeSubnormal => ∃ q, value32 w = .number q ∧ q < 0 ∧ -2 ^ (-126 : ℤ) < q
    | .positiveNormal => ∃ q, value32 w = .number q ∧ 2 ^ (-126 : ℤ) ≤ q ∧ q < 2 ^ (128 : ℤ)
    | .negativeNormal => ∃ q, value32 w = .number q ∧ q ≤ -2 ^ (-126 : ℤ) ∧ -2 ^ (128 : ℤ) < q
    | .positiveInfinity => value32 w = .infinity false
    | .negativeInfinity => value32 w = .infinity true
    | .quietNaN => value32 w = .nan true
    | .signalingNaN => value32 w = .nan false)

/-- DECODE keeps the class of its operand, but for subnormals, which become normals of the same sign. -/
def Obligations.DecodeKeepsTheClassButNormalises : Prop :=
  ∀ h : Word16, classify32 (fp16Decode h) = match classify16 h with
    | .positiveSubnormal => .positiveNormal
    | .negativeSubnormal => .negativeNormal
    | .positiveZero => .positiveZero
    | .negativeZero => .negativeZero
    | .positiveNormal => .positiveNormal
    | .negativeNormal => .negativeNormal
    | .positiveInfinity => .positiveInfinity
    | .negativeInfinity => .negativeInfinity
    | .quietNaN => .quietNaN
    | .signalingNaN => .signalingNaN

/-- The finite binary16 magnitudes are the words `0x0000` to `0x7BFF`, and a larger word is a larger number, across
the step from the largest subnormal to the smallest normal too. -/
def Obligations.FiniteMagnitudesRiseWithTheirWords : Prop :=
  (∀ m m' : Nat, m < m' → m' ≤ 0x7BFF →
    number16 (BitVec.ofNat 16 m) < number16 (BitVec.ofNat 16 m')) ∧
  (∀ h : Word16, h.extractLsb 14 10 ≠ 0x1F#5 ↔ (h.extractLsb 14 0).toNat ≤ 0x7BFF) ∧
  number16 0x7BFF#16 = 65504
end

