-- ==== Sys2Proof/Laws/State.lean ====
section
/-! SUPPORT. One lemma per field per update of the bench. -/

namespace Sys2Proof.Machine

variable (s : State) (u : Nat) (w : Word32) (h : Word16) (r : OutWord)

@[simp] theorem State.driveEncoder_encoders :
    (s.driveEncoder u w).encoders = Drive.write s.encoders u w := rfl
@[simp] theorem State.driveEncoder_decoders : (s.driveEncoder u w).decoders = s.decoders := rfl
@[simp] theorem State.driveEncoder_target : (s.driveEncoder u w).target = s.target := rfl
@[simp] theorem State.driveEncoder_pending : (s.driveEncoder u w).pending = s.pending := rfl
@[simp] theorem State.driveEncoder_results : (s.driveEncoder u w).results = s.results := rfl

@[simp] theorem State.driveDecoder_encoders : (s.driveDecoder u h).encoders = s.encoders := rfl
@[simp] theorem State.driveDecoder_decoders :
    (s.driveDecoder u h).decoders = Drive.write s.decoders u h := rfl
@[simp] theorem State.driveDecoder_target : (s.driveDecoder u h).target = s.target := rfl
@[simp] theorem State.driveDecoder_pending : (s.driveDecoder u h).pending = s.pending := rfl
@[simp] theorem State.driveDecoder_results : (s.driveDecoder u h).results = s.results := rfl

@[simp] theorem State.deliver_encoders : (s.deliver r).encoders = s.encoders := rfl
@[simp] theorem State.deliver_decoders : (s.deliver r).decoders = s.decoders := rfl
@[simp] theorem State.deliver_target : (s.deliver r).target = s.target := rfl
@[simp] theorem State.deliver_pending : (s.deliver r).pending = s.pending := rfl
@[simp] theorem State.deliver_results : (s.deliver r).results = s.results ++ [r] := rfl
@[simp] theorem State.deliver_lastResult : (s.deliver r).lastResult = some r := by
  simp [State.lastResult]

@[simp] theorem State.deliver_encoderIn (v : Nat) : (s.deliver r).encoderIn v = s.encoderIn v := rfl
@[simp] theorem State.deliver_decoderIn (v : Nat) : (s.deliver r).decoderIn v = s.decoderIn v := rfl
@[simp] theorem State.driveEncoder_decoderIn (v : Nat) :
    (s.driveEncoder u w).decoderIn v = s.decoderIn v := rfl
@[simp] theorem State.driveDecoder_encoderIn (v : Nat) :
    (s.driveDecoder u h).encoderIn v = s.encoderIn v := rfl

end Sys2Proof.Machine
end

