-- ==== Sys2Proof/Laws/Drive.lean ====
section
/-! SUPPORT. What driving a port does: the port reads the word, every other port reads as before, and the canonical
form is kept. In canonical form equal readings are equal data. -/

namespace Sys2Proof.Machine

variable {n : Nat}

@[simp] theorem Drive.read_nil (u : Nat) : Drive.read ([] : Drive n) u = Config.undriven n := rfl

theorem Drive.read_insert (d : Drive n) (u : Nat) (w : BitVec n) (h : ∀ e ∈ d, e.1 ≠ u) (v : Nat) :
    Drive.read (Drive.insert d u w) v = if u = v then w else Drive.read d v := by
  induction d with
  | nil => simp [Drive.insert, Drive.read]
  | cons e d ih =>
    have hd := ih fun e he => h e (List.mem_cons_of_mem _ he)
    have he : e.1 ≠ u := h e List.mem_cons_self
    unfold Drive.insert
    split
    · simp [Drive.read]
    · simp only [Drive.read, hd]
      split_ifs <;> simp_all

theorem Drive.read_filter_ne (d : Drive n) (u v : Nat) :
    Drive.read (d.filter fun e => e.1 ≠ u) v = if u = v then Config.undriven n else Drive.read d v := by
  induction d with
  | nil => simp [Drive.read]
  | cons e d ih =>
    by_cases he : e.1 = u
    · rw [List.filter_cons_of_neg (by simpa using he), ih]
      simp only [Drive.read]
      split_ifs <;> simp_all
    · rw [List.filter_cons_of_pos (by simpa using he)]
      simp only [Drive.read, ih]
      split_ifs <;> simp_all

/-- A driven port reads the word driven on it; every other port reads as before. -/
theorem Drive.read_write (d : Drive n) (u : Nat) (w : BitVec n) (v : Nat) :
    Drive.read (Drive.write d u w) v = if u = v then w else Drive.read d v := by
  unfold Drive.write
  split
  · next hw => rw [Drive.read_filter_ne, hw]
  · rw [Drive.read_insert _ _ _ (by simp), Drive.read_filter_ne]
    split_ifs <;> rfl

theorem Drive.read_write_same (d : Drive n) (u : Nat) (w : BitVec n) :
    Drive.read (Drive.write d u w) u = w := by simp [Drive.read_write]

theorem Drive.read_write_other (d : Drive n) {u v : Nat} (w : BitVec n) (h : u ≠ v) :
    Drive.read (Drive.write d u w) v = Drive.read d v := by simp [Drive.read_write, h]

theorem Drive.mem_insert {d : Drive n} {u : Nat} {w : BitVec n} {e : Nat × BitVec n} :
    e ∈ Drive.insert d u w ↔ e = (u, w) ∨ e ∈ d := by
  induction d with
  | nil => simp [Drive.insert]
  | cons a d ih =>
    unfold Drive.insert
    split
    · simp
    · simp [ih]; tauto

theorem Drive.insert_pairwise {d : Drive n} {u : Nat} {w : BitVec n}
    (hd : d.Pairwise fun a b => a.1 < b.1) (h : ∀ e ∈ d, e.1 ≠ u) :
    (Drive.insert d u w).Pairwise fun a b => a.1 < b.1 := by
  induction d with
  | nil => simp [Drive.insert]
  | cons a d ih =>
    obtain ⟨ha, hd⟩ := List.pairwise_cons.mp hd
    have hau : a.1 ≠ u := h a List.mem_cons_self
    unfold Drive.insert
    split
    · next hlt =>
      refine List.pairwise_cons.mpr ⟨fun e he => ?_, List.pairwise_cons.mpr ⟨ha, hd⟩⟩
      rcases List.mem_cons.mp he with rfl | he
      · exact hlt
      · exact lt_trans hlt (ha e he)
    · next hge =>
      refine List.pairwise_cons.mpr ⟨fun e he => ?_, ih hd fun e he => h e (List.mem_cons_of_mem _ he)⟩
      rcases Drive.mem_insert.mp he with rfl | he
      · exact lt_of_le_of_ne (not_lt.mp hge) hau
      · exact ha e he

/-- Driving a port keeps the canonical form. -/
theorem Drive.write_wf {d : Drive n} (u : Nat) (w : BitVec n) (hd : Drive.wf d) :
    Drive.wf (Drive.write d u w) := by
  have hp : (d.filter fun e => e.1 ≠ u).Pairwise fun a b => a.1 < b.1 := hd.1.filter _
  unfold Drive.write
  split
  · exact ⟨hp, fun e he => hd.2 e (List.mem_of_mem_filter he)⟩
  · next hw =>
    refine ⟨Drive.insert_pairwise hp (by simp), fun e he => ?_⟩
    rcases Drive.mem_insert.mp he with rfl | he
    · exact hw
    · exact hd.2 e (List.mem_of_mem_filter he)

theorem Drive.read_of_lt_all {d : Drive n} {u : Nat} (h : ∀ e ∈ d, u < e.1) :
    Drive.read d u = Config.undriven n := by
  induction d with
  | nil => rfl
  | cons a d ih =>
    have := h a List.mem_cons_self
    simp only [Drive.read, ih fun e he => h e (List.mem_cons_of_mem _ he)]
    split_ifs
    · omega
    · rfl

/-- Canonical drives that read alike are equal. -/
theorem Drive.ext_of_wf {d e : Drive n} (hd : Drive.wf d) (he : Drive.wf e)
    (h : ∀ u, Drive.read d u = Drive.read e u) : d = e := by
  induction d generalizing e with
  | nil =>
    cases e with
    | nil => rfl
    | cons b e =>
      have hb := h b.1
      simp [Drive.read] at hb
      exact absurd hb.symm (he.2 b List.mem_cons_self)
  | cons a d ih =>
    obtain ⟨had, hdp⟩ := List.pairwise_cons.mp hd.1
    have ha0 := hd.2 a List.mem_cons_self
    cases e with
    | nil =>
      have := h a.1
      simp [Drive.read] at this
      exact absurd this ha0
    | cons b e =>
      obtain ⟨hbe, hep⟩ := List.pairwise_cons.mp he.1
      have hb0 := he.2 b List.mem_cons_self
      have hab : a.1 = b.1 := by
        rcases lt_trichotomy a.1 b.1 with hlt | heq | hgt
        · have h1 := h a.1
          rw [Drive.read_of_lt_all (d := b :: e) (by
            intro x hx
            rcases List.mem_cons.mp hx with rfl | hx
            · exact hlt
            · exact lt_trans hlt (hbe x hx))] at h1
          simp [Drive.read] at h1
          exact absurd h1 ha0
        · exact heq
        · have h1 := h b.1
          rw [Drive.read_of_lt_all (d := a :: d) (by
            intro x hx
            rcases List.mem_cons.mp hx with rfl | hx
            · exact hgt
            · exact lt_trans hgt (had x hx))] at h1
          simp [Drive.read] at h1
          exact absurd h1.symm hb0
      have hw : a.2 = b.2 := by simpa [Drive.read, hab] using h a.1
      have htail : d = e := by
        refine ih ⟨hdp, fun x hx => hd.2 x (List.mem_cons_of_mem _ hx)⟩
          ⟨hep, fun x hx => he.2 x (List.mem_cons_of_mem _ hx)⟩ fun u => ?_
        by_cases hu : a.1 = u
        · subst hu
          rw [Drive.read_of_lt_all had, Drive.read_of_lt_all fun x hx => hab ▸ hbe x hx]
        · simpa [Drive.read, hu, hab ▸ hu] using h u
      rw [htail, Prod.ext hab hw]

end Sys2Proof.Machine
end

