-- ==== Sys2Proof/Laws/Encoding.lean ====
section
/-! SUPPORT. Fields, packed words and rounding as arithmetic on numbers. -/

namespace Sys2Proof

theorem compose16_toNat (f : Fields16) :
    (compose16 f).toNat = f.s.toNat * 2 ^ 15 + f.E.toNat * 2 ^ 10 + f.F.toNat := by
  have := f.E.isLt; have := f.F.isLt
  simp only [compose16, BitVec.toNat_append, ← Nat.shiftLeft_add_eq_or_of_lt f.F.isLt,
    ← Nat.shiftLeft_add_eq_or_of_lt f.E.isLt]
  simp only [Nat.shiftLeft_eq]
  omega

theorem compose32_toNat (f : Fields32) :
    (compose32 f).toNat = f.s.toNat * 2 ^ 31 + f.E.toNat * 2 ^ 23 + f.F.toNat := by
  have := f.E.isLt; have := f.F.isLt
  simp only [compose32, BitVec.toNat_append, ← Nat.shiftLeft_add_eq_or_of_lt f.F.isLt,
    ← Nat.shiftLeft_add_eq_or_of_lt f.E.isLt]
  simp only [Nat.shiftLeft_eq]
  omega

theorem decompose16_s_toNat (h : Word16) : (decompose16 h).s.toNat = h.toNat / 2 ^ 15 := by
  have := h.isLt
  simp [decompose16, Nat.shiftRight_eq_div_pow]; omega

theorem decompose16_E_toNat (h : Word16) : (decompose16 h).E.toNat = h.toNat / 2 ^ 10 % 2 ^ 5 := by
  simp [decompose16, Nat.shiftRight_eq_div_pow]

theorem decompose16_F_toNat (h : Word16) : (decompose16 h).F.toNat = h.toNat % 2 ^ 10 := by
  simp [decompose16]

theorem decompose32_s_toNat (w : Word32) : (decompose32 w).s.toNat = w.toNat / 2 ^ 31 := by
  have := w.isLt
  simp [decompose32, Nat.shiftRight_eq_div_pow]; omega

theorem decompose32_E_toNat (w : Word32) : (decompose32 w).E.toNat = w.toNat / 2 ^ 23 % 2 ^ 8 := by
  simp [decompose32, Nat.shiftRight_eq_div_pow]

theorem decompose32_F_toNat (w : Word32) : (decompose32 w).F.toNat = w.toNat % 2 ^ 23 := by
  simp [decompose32]

theorem slice_toNat (bits hi lo : Nat) :
    (slice bits hi lo).toNat = bits / 2 ^ lo % 2 ^ (hi - lo + 1) := by
  simp [slice, Nat.shiftRight_eq_div_pow]

theorem rebias_eq (E : BitVec 8) : rebias E = (E.toNat : Int) - 112 := by
  simp [rebias]; omega

end Sys2Proof

namespace Sys2Proof.Machine

theorem signAbove15_toNat (s : BitVec 1) {p : Nat} (hp : p < 2 ^ 15) :
    (signAbove15 s p).toNat = s.toNat * 2 ^ 15 + p := by
  have h := Nat.shiftLeft_add_eq_or_of_lt hp s.toNat
  simp only [signAbove15, BitVec.toNat_append, BitVec.toNat_ofNat, Nat.mod_eq_of_lt hp, ← h]
  simp only [Nat.shiftLeft_eq]

theorem widenFraction_toNat (F : BitVec 10) : (widenFraction F).toNat = F.toNat * 2 ^ 13 := by
  have h := Nat.shiftLeft_add_eq_or_of_lt (show (0#13).toNat < 2 ^ 13 by decide) F.toNat
  simp only [widenFraction, BitVec.toNat_append, ← h]
  simp [Nat.shiftLeft_eq]

/-- `rne` adds 1 to the kept bits when the dropped bits are above half, or half and the kept bits odd. -/
theorem rne_eq (n : Nat) {k : Nat} (hk : 1 ≤ k) :
    rne n k = n / 2 ^ k +
      if 2 ^ (k - 1) < n % 2 ^ k ∨ (n % 2 ^ k = 2 ^ (k - 1) ∧ n / 2 ^ k % 2 = 1) then 1 else 0 := by
  obtain ⟨j, rfl⟩ : ∃ j, k = j + 1 := ⟨k - 1, by omega⟩
  have hmod : n % 2 ^ (j + 1) = n % 2 ^ j + 2 ^ j * (n / 2 ^ j % 2) := by
    rw [pow_succ, Nat.mod_mul]
  have hpos : 0 < 2 ^ j := by positivity
  have hlt : n % 2 ^ j < 2 ^ j := Nat.mod_lt _ hpos
  simp only [rne, keptBits, roundIncrement, roundBit, stickyBit, Nat.testBit_eq_decide_div_mod_eq,
    Nat.shiftRight_eq_div_pow, Nat.add_sub_cancel, hmod]
  rcases Nat.mod_two_eq_zero_or_one (n / 2 ^ j) with hb | hb <;>
    rcases Nat.mod_two_eq_zero_or_one (n / 2 ^ (j + 1)) with hq | hq <;>
    rcases Nat.eq_zero_or_pos (n % 2 ^ j) with hr | hr <;>
    simp [hb, hq, hr] <;> omega

/-- The loop of R83 doubles until the leading 1 stands at bit 10, and counts its passes in the exponent. -/
theorem normalise_eq {fuel j m : Nat} (x : Int) (hj : j ≤ fuel) (hlo : 2 ^ 10 ≤ m * 2 ^ j)
    (hhi : m * 2 ^ j < 2 ^ 11) : normalise fuel m x = (m * 2 ^ j, x - j) := by
  have htest (n : Nat) : n &&& 0x400 = (n.testBit 10).toNat * 2 ^ 10 := Nat.and_two_pow n 10
  induction j generalizing fuel m x with
  | zero =>
    have hbit : m.testBit 10 = true := by
      rw [Nat.testBit_eq_decide_div_mod_eq, show m / 2 ^ 10 = 1 by omega]
      rfl
    cases fuel with
    | zero => simp [normalise]
    | succ fuel => simp [normalise, htest, hbit]
  | succ j ih =>
    obtain ⟨fuel, rfl⟩ : ∃ f, fuel = f + 1 := ⟨fuel - 1, by omega⟩
    have hm : m < 2 ^ 10 := by
      have h1 : 1 ≤ 2 ^ j := Nat.one_le_two_pow
      rw [pow_succ] at hhi
      nlinarith
    have hbit : m.testBit 10 = false := Nat.testBit_lt_two_pow hm
    have hmul : m <<< 1 * 2 ^ j = m * 2 ^ (j + 1) := by rw [Nat.shiftLeft_eq, pow_succ]; ring
    have := ih (fuel := fuel) (m := m <<< 1) (x - 1) (by omega) (hmul ▸ hlo) (hmul ▸ hhi)
    simp only [normalise, htest, hbit, Bool.toNat_false, Nat.zero_mul, if_true, this, hmul]
    push_cast
    ring_nf

end Sys2Proof.Machine
end

