-- ==== Sys2Proof/Laws/PerInstr.lean ====
section
/-! SUPPORT. Statements over the instructions, one lemma per constructor. -/

namespace Sys2Proof.Laws.WholeWordOperand

/-- An instruction is well-formed, and its word has the width of its block's input port (spec/30_encoding.md R34,
R35; spec/20_memory.md R23). -/
def Statement (i : Instr) : Prop :=
  i.wellFormed = true ∧ (encode i).nbits = (encode i).block.inWidth

theorem encode (w : Word32) : Statement (.encode w) := ⟨rfl, rfl⟩

theorem decode (h : Word16) : Statement (.decode h) := ⟨rfl, rfl⟩

end Sys2Proof.Laws.WholeWordOperand
end

