-- ==== Sys2Proof/Laws/Registered.lean ====
section
/-! SUPPORT. What a registered block delivers: first what its registers held, oldest first, then the function of each
input word in turn, one word per clock. -/

namespace Sys2Proof.Machine

theorem clocks_eq {α β : Type} (f : α → β) (stages : List β) (xs : List α) :
    clocks f stages xs = (stages.reverse ++ xs.map f).take xs.length := by
  induction xs generalizing stages with
  | nil => simp [clocks]
  | cons x xs ih =>
    rw [clocks, ih]
    rcases List.eq_nil_or_concat stages with rfl | ⟨newer, oldest, rfl⟩
    · simp [clock]
    · have h : (f x :: (newer ++ [oldest])).dropLast = f x :: newer := by
        rw [← List.cons_append, List.dropLast_concat]
      simp [clock, h]

/-- A block without registers is combinational (spec/00_scope.md R8, reference value 0). -/
theorem registeredEncoder_reference (occasion : Nat) (xs : List Word32) :
    registeredEncoder occasion Config.referenceLatency xs = xs.map fp16Encode := by
  simp [registeredEncoder, powerUpEncoder, Config.referenceLatency, clocks_eq, List.take_of_length_le]

theorem registeredDecoder_reference (occasion : Nat) (xs : List Word16) :
    registeredDecoder occasion Config.referenceLatency xs = xs.map fp16Decode := by
  simp [registeredDecoder, powerUpDecoder, Config.referenceLatency, clocks_eq, List.take_of_length_le]

@[simp] theorem powerUpEncoder_length (occasion latency : Nat) :
    (powerUpEncoder occasion latency).length = latency := by simp [powerUpEncoder]

@[simp] theorem powerUpDecoder_length (occasion latency : Nat) :
    (powerUpDecoder occasion latency).length = latency := by simp [powerUpDecoder]

end Sys2Proof.Machine
end

