-- ==== Sys2Proof/Laws/Step.lean ====
section
/-! SUPPORT. What the operations of the bench, an evaluation and a step can do, said once each. -/

namespace Sys2Proof.Machine

/-! ### Ports -/

@[simp] theorem State.driveEncoder_encoderIn (s : State) (u v : Nat) (w : Word32) :
    (s.driveEncoder u w).encoderIn v = if u = v then w else s.encoderIn v :=
  Drive.read_write s.encoders u w v

@[simp] theorem State.driveDecoder_decoderIn (s : State) (u v : Nat) (h : Word16) :
    (s.driveDecoder u h).decoderIn v = if u = v then h else s.decoderIn v :=
  Drive.read_write s.decoders u h v

/-! ### An evaluation -/

/-- ENCODE drives the addressed encoder's input and delivers the block's function of the operand. -/
theorem execEncode_eq (w : Word32) (s : State) :
    execEncode w s = .next ((s.driveEncoder s.target w).deliver (.f16 (fp16Encode w))) := by
  simp [execEncode, State.encoderOut]

/-- DECODE drives the addressed decoder's input and delivers the block's function of the operand. -/
theorem execDecode_eq (h : Word16) (s : State) :
    execDecode h s = .next ((s.driveDecoder s.target h).deliver (.f32 (fp16Decode h))) := by
  simp [execDecode, State.decoderOut]

/-- The state after one evaluation. -/
def afterEvaluation (i : Instr) (s : State) : State :=
  match i with
  | .encode w => (s.driveEncoder s.target w).deliver (.f16 (fp16Encode w))
  | .decode h => (s.driveDecoder s.target h).deliver (.f32 (fp16Decode h))

theorem exec_eq (i : Instr) (s : State) : exec i s = .next (afterEvaluation i s) := by
  cases i with
  | encode w => exact execEncode_eq w s
  | decode h => exact execDecode_eq h s

theorem afterEvaluation_results (i : Instr) (s : State) :
    (afterEvaluation i s).results = s.results ++ [evaluate i] := by cases i <;> rfl

theorem afterEvaluation_pending (i : Instr) (s : State) :
    (afterEvaluation i s).pending = s.pending := by cases i <;> rfl

theorem afterEvaluation_target (i : Instr) (s : State) :
    (afterEvaluation i s).target = s.target := by cases i <;> rfl

theorem afterEvaluation_drives_wf (i : Instr) {s : State} (he : Drive.wf s.encoders)
    (hd : Drive.wf s.decoders) :
    Drive.wf (afterEvaluation i s).encoders ∧ Drive.wf (afterEvaluation i s).decoders := by
  cases i with
  | encode w => exact ⟨Drive.write_wf s.target w he, hd⟩
  | decode h => exact ⟨he, Drive.write_wf s.target h hd⟩

/-! ### A step -/

/-- A request presents a word exactly when its `%`, if it has one, is bound by the line before. -/
theorem presented_isSome (prev : Option OutWord) (r : Request) :
    (r.presented prev).isSome = r.bound (prev.map OutWord.block) := by
  rcases r with (_ | _) | (_ | _) <;> rcases prev with _ | (_ | _) <;> rfl

/-- The operation a request presents is of the request's kind, and so is its result. -/
theorem presented_block {prev : Option OutWord} {r : Request} {pw : PortWord}
    (h : r.presented prev = some pw) : (evaluate (select pw)).block = r.block := by
  rcases r with (_ | _) | (_ | _) <;> rcases prev with _ | (_ | _) <;>
    simp_all [Request.presented] <;> subst h <;> rfl

/-- Everything a step can do: the list has ended and nothing changes; or a `%` stands for no word and the machine
refuses; or the next request is evaluated. -/
theorem step_cases (s : State) :
    (s.pending = [] ∧ step s = .next s) ∨
    (∃ st rest, s.pending = st :: rest ∧ st.request.presented s.lastResult = none ∧
      step s = .refused .previousResultMissing) ∨
    (∃ st rest pw, s.pending = st :: rest ∧ st.request.presented s.lastResult = some pw ∧
      step s = .next (afterEvaluation (select pw) { s with pending := rest, target := st.unit })) := by
  rcases hp : s.pending with _ | ⟨st, rest⟩
  · exact .inl ⟨rfl, by simp [step, State.fetch, hp]⟩
  · rcases hw : st.request.presented s.lastResult with _ | pw
    · exact .inr (.inl ⟨st, rest, rfl, hw, by simp [step, State.fetch, hp, hw]⟩)
    · exact .inr (.inr ⟨st, rest, pw, rfl, hw, by simp [step, State.fetch, hp, hw, exec_eq]⟩)

/-- A run of one step more, when that step answers. -/
theorem run_succ {s t : State} (k : Nat) (h : step s = .next t) :
    Host.Core.run core (k + 1) s = Host.Core.run core k t := by
  have h' : core.step s = .next t := h
  simp only [Host.Core.run, h']

end Sys2Proof.Machine
end

