-- ==== Sys2Proof/Laws/Values.lean ====
section
/-! SUPPORT. The numbers of words as whole multiples of the smallest positive value of their format. -/

namespace Sys2Proof.Machine

/-- The magnitude of a binary16 word in units of `2^−24`. -/
def units16 (h : Word16) : Nat :=
  let f := decompose16 h
  if f.E = 0#5 then f.F.toNat else (1024 + f.F.toNat) * 2 ^ (f.E.toNat - 1)

/-- The magnitude of a binary32 word in units of `2^−149`. -/
def units32 (w : Word32) : Nat :=
  let f := decompose32 w
  if f.E = 0#8 then f.F.toNat else (2 ^ 23 + f.F.toNat) * 2 ^ (f.E.toNat - 1)

theorem number16_eq (h : Word16) :
    number16 h = (-1) ^ (decompose16 h).s.toNat * ((units16 h : ℚ) / 2 ^ 24) := by
  unfold number16 units16
  simp only
  split_ifs with hE
  · simp [zpow_neg, div_eq_mul_inv]
  · have h1 : 1 ≤ (decompose16 h).E.toNat := by
      have : (decompose16 h).E.toNat ≠ 0 := fun h0 => hE (BitVec.eq_of_toNat_eq (by simpa using h0))
      omega
    obtain ⟨k, hk⟩ : ∃ k, (decompose16 h).E.toNat = k + 1 := ⟨_, (Nat.sub_add_cancel h1).symm⟩
    have hz : (2 : ℚ) ^ (((k + 1 : ℕ) : ℤ) - 25) = 2 ^ k / 2 ^ 24 := by
      rw [show ((k + 1 : ℕ) : ℤ) - 25 = (k : ℤ) - 24 by push_cast; ring, zpow_sub₀ (by norm_num)]
      norm_cast
    rw [hk, hz]
    push_cast
    ring_nf

theorem number32_eq (w : Word32) :
    number32 w = (-1) ^ (decompose32 w).s.toNat * ((units32 w : ℚ) / 2 ^ 149) := by
  unfold number32 units32
  simp only
  split_ifs with hE
  · simp [zpow_neg, div_eq_mul_inv]
  · have h1 : 1 ≤ (decompose32 w).E.toNat := by
      have : (decompose32 w).E.toNat ≠ 0 := fun h0 => hE (BitVec.eq_of_toNat_eq (by simpa using h0))
      omega
    obtain ⟨k, hk⟩ : ∃ k, (decompose32 w).E.toNat = k + 1 := ⟨_, (Nat.sub_add_cancel h1).symm⟩
    have hz : (2 : ℚ) ^ (((k + 1 : ℕ) : ℤ) - 150) = 2 ^ k / 2 ^ 149 := by
      rw [show ((k + 1 : ℕ) : ℤ) - 150 = (k : ℤ) - 149 by push_cast; ring, zpow_sub₀ (by norm_num)]
      norm_cast
    rw [hk, hz]
    push_cast
    ring_nf

end Sys2Proof.Machine
end

