-- ==== Sys2Proof/Tests/Slice0.lean ====
section
/-! SUPPORT. Tests and witnesses. Expected results are the spec's: spec/95_test_vectors.md (sections named) and the
word tables of spec/30_encoding.md. -/

namespace Sys2Proof.Machine.Tests

/-- A bench with the given words on encoder 0 and decoder 0 and the given requests pending, addressed to unit 0. -/
def bench (w : Word32) (h : Word16) (rs : List Request) : State :=
  { State.reset with
    encoders := Drive.write [] 0 w
    decoders := Drive.write [] 0 h
    pending := rs.map fun r => { unit := 0, request := r } }

/-! ### Well-formedness: what each check refuses -/

theorem test_wf_every_instruction : Instr.wellFormed (.encode 0x7F800001#32) = true ∧
    Instr.wellFormed (.decode 0x7C01#16) = true := by decide
theorem test_wf_refuses_new_line_in_comment :
    Line.wellFormed (.encode (.word 0#32) none (some ['a', '\n'])) = false := by decide
theorem test_wf_refuses_percent_on_first_line :
    programWellFormed [.decode .previous none none] = false := by decide
theorem test_wf_refuses_encode_percent_after_encode :
    programWellFormed [.encode (.word 0#32) none none, .encode .previous none none] = false := by decide
theorem test_wf_refuses_decode_percent_after_decode :
    programWellFormed [.decode (.word 0#16) none none, .decode .previous none none] = false := by decide
theorem test_wf_accepts_a_chain :
    programWellFormed [.decode (.word 0#16) none none, .encode .previous none (some ['x'])] = true := by decide
theorem test_drive_wf_refuses_disorder_and_undriven_entries :
    ¬ Drive.wf [(1, 5#16), (0, 5#16)] ∧ ¬ Drive.wf [(0, 0#16)] ∧ Drive.wf [(0, 5#16), (1, 5#16)] := by decide

/-! ### Decoding: words written out from the tables of R30 and R31 -/

/-- Sign 1, exponent `0x8E`, fraction `0x7FF000` (R50's example). -/
theorem test_decode_encode_word :
    decode { block := .encoder, nbits := 32, bits := 0b1_10001110_11111111111000000000000 } =
      .ok (.encode 0xC77FF000#32) := by decide
/-- Sign 0, exponent `0x1E`, fraction `0x3FF` (R50's example). -/
theorem test_decode_decode_word :
    decode { block := .decoder, nbits := 16, bits := 0b0_11110_1111111111 } = .ok (.decode 0x7BFF#16) := by decide
theorem test_decode_refuses_other_widths :
    decode { block := .decoder, nbits := 32, bits := 0 } = .error .notThePortWidth := by decide
theorem test_decode_refuses_a_bit_above :
    decode { block := .decoder, nbits := 16, bits := 0x10000 } = .error .bitAboveWidth := by decide
theorem test_table_words_of_no_port : decodeTableWord 8 0 = none ∧ decodeTableWord 16 0x10000 = none := by decide

/-! ### Helpers (95_test_vectors.md section 2.7) -/

theorem test_decompose32 :
    decompose32 0xC77FF000#32 = { s := 1#1, E := 0x8E#8, F := 0x7FF000#23 } := by decide
theorem test_decompose16 : decompose16 0x7E01#16 = { s := 0#1, E := 0x1F#5, F := 0x201#10 } := by decide
theorem test_compose : compose16 { s := 1#1, E := 0x0F#5, F := 0#10 } = 0xBC00#16 ∧
    compose32 { s := 0#1, E := 0x7F#8, F := 0x002000#23 } = 0x3F802000#32 := by decide
theorem test_rebias : rebias 0x7F#8 = 15 ∧ rebias 0x8F#8 = 31 ∧ rebias 0x66#8 = -10 ∧ rebias 0x00#8 = -112 := by
  decide
theorem test_rne : rne 0x1000 13 = 0 ∧ rne 0x3000 13 = 2 ∧ rne 0x0FFF 13 = 0 ∧ rne 0x7FF000 13 = 0x400 ∧
    rne 0x800000 24 = 0 ∧ rne 0x800001 24 = 1 ∧ rne 0xC00000 23 = 2 := by decide
theorem test_classes16 : classify16 0x83FF#16 = .negativeSubnormal ∧ classify16 0x0400#16 = .positiveNormal ∧
    classify16 0x7E00#16 = .quietNaN ∧ classify16 0x7DFF#16 = .signalingNaN := by decide
theorem test_classes32 : classify32 0x00800000#32 = .positiveNormal ∧ classify32 0x807FFFFF#32 = .negativeSubnormal ∧
    classify32 0xFFFFFFFF#32 = .quietNaN ∧ classify32 0xFF802000#32 = .signalingNaN := by decide

/-! ### The two operations -/

/-- Sections 2.1 to 2.3: exact, both ties, a carry, overflow, zero, subnormals, a clamped-carry trap, NaNs. -/
theorem test_encode_vectors :
    [(0xBF800000#32, 0xBC00#16), (0x3F801000#32, 0x3C00#16), (0x3F803000#32, 0x3C02#16), (0x3FFFF000#32, 0x4000#16),
     (0x42F6E979#32, 0x57B7#16), (0x477FEFFF#32, 0x7BFF#16), (0x477FF000#32, 0x7C00#16), (0xFF7FFFFF#32, 0xFC00#16),
     (0xB2FFFFFF#32, 0x8000#16), (0x33000000#32, 0x0000#16), (0x33000001#32, 0x0001#16), (0x34200000#32, 0x0002#16),
     (0x387FE000#32, 0x0400#16), (0x7F801FFF#32, 0x7E00#16), (0x7FA00000#32, 0x7F00#16), (0xFF802000#32, 0xFE01#16)
    ].all (fun p => fp16Encode p.1 = p.2) = true := by decide

/-- Section 2.5: zero, subnormals at both ends of the loop, normals at both ends, infinity, both kinds of NaN. -/
theorem test_decode_vectors :
    [(0x8000#16, 0x80000000#32), (0x0001#16, 0x33800000#32), (0x0003#16, 0x34400000#32), (0x83FF#16, 0xB87FC000#32),
     (0x0400#16, 0x38800000#32), (0x57B7#16, 0x42F6E000#32), (0xFBFF#16, 0xC77FE000#32), (0xFC00#16, 0xFF800000#32),
     (0x7DFF#16, 0x7FBFE000#32), (0xFFFF#16, 0xFFFFE000#32)].all (fun p => fp16Decode p.1 = p.2) = true := by decide

/-- One step of ENCODE 0x477FF000 (section 1): the word on the port, and the result delivered. -/
theorem test_step_encode : ∃ t, step (bench 5#32 7#16 [.encode (.word 0x477FF000#32)]) = .next t ∧
    t.results = [.f16 0x7C00#16] ∧ t.encoderIn 0 = 0x477FF000#32 ∧ t.decoderIn 0 = 7#16 ∧ t.pending = [] :=
  ⟨_, rfl, by decide, by decide, by decide, by decide⟩

/-- One step of DECODE 0x7C01 (section 1). -/
theorem test_step_decode : ∃ t, step (bench 5#32 7#16 [.decode (.word 0x7C01#16)]) = .next t ∧
    t.results = [.f32 0x7F802000#32] ∧ t.decoderOut 0 = 0x7F802000#32 ∧ t.encoderIn 0 = 5#32 :=
  ⟨_, rfl, by decide, by decide, by decide⟩

/-- A word placed right after reset is the first to run. -/
theorem test_placed_word_runs_first : ∃ t, step (State.reset.withFetchWord 16 0x3C00) = .next t ∧
    t.results = [.f32 0x3F800000#32] := ⟨_, rfl, by decide⟩

/-- `%` after the wrong operation is refused by name. -/
theorem test_percent_without_a_word : step (bench 0#32 0#16 [.encode .previous]) = .refused .previousResultMissing :=
  rfl

/-! ### Stimulus text -/

/-- Program P1's seventh and eighth pairs (section 3), as text: it reads, is well-formed, and its outcome is the one
it states. -/
theorem test_program_text_of_P1 :
    ((readProgram ("DECODE 0x7C01 -> 0x7F802000 ; signalling NaN, payload 1\n" ++
        "ENCODE %      -> 0x7E01     ; NOT 0x7C01: quiet bit forced on, b | 0x0200\n" ++
        "DECODE %      -> 0x7FC02000 ; now quiet\n" ++ "ENCODE %      -> 0x7E01\n").toList).map fun p =>
      (programWellFormed p, (outcome none (p.map Line.request)).map (meetsExpected p))) =
      some (true, some true) := by decide +kernel
theorem test_load_puts_requests_after_those_pending :
    ((bench 0#32 0#16 [.decode (.word 0x3C00#16)]).load 7 [.encode .previous none (some ['x'])]).pending =
      [⟨0, .decode (.word 0x3C00#16)⟩, ⟨7, .encode .previous⟩] := rfl
theorem test_text_refuses_short_word : readLine "ENCODE 0x3F80000".toList = none := by decide
theorem test_text_refuses_missing_new_line : readProgram "DECODE 0x3C00".toList = none := by decide

/-! ### Values: 65520 and 65504 as the spec writes them (section 1) -/

theorem value_of_65520 : number32 0x477FF000#32 = 65520 := by
  rw [number32_eq, show units32 0x477FF000#32 = 65520 * 2 ^ 149 by decide,
    show (decompose32 0x477FF000#32).s.toNat = 0 by decide]
  norm_num
theorem value_of_65504 : number32 0x477FE000#32 = 65504 ∧ number16 0x7BFF#16 = 65504 := by
  rw [number32_eq, show units32 0x477FE000#32 = 65504 * 2 ^ 149 by decide,
    show (decompose32 0x477FE000#32).s.toNat = 0 by decide,
    number16_eq, show units16 0x7BFF#16 = 65504 * 2 ^ 24 by decide, show (decompose16 0x7BFF#16).s.toNat = 0 by decide]
  norm_num
theorem value_of_one : number32 0x3F800000#32 = 1 ∧ number16 0x3C00#16 = 1 := by
  rw [number32_eq, show units32 0x3F800000#32 = 1 * 2 ^ 149 by decide,
    show (decompose32 0x3F800000#32).s.toNat = 0 by decide,
    number16_eq, show units16 0x3C00#16 = 1 * 2 ^ 24 by decide, show (decompose16 0x3C00#16).s.toNat = 0 by decide]
  norm_num
theorem value_of_minus_zero : number32 0x80000000#32 = 0 ∧ number16 0x8000#16 = 0 := by
  rw [number32_eq, show units32 0x80000000#32 = 0 by decide, number16_eq, show units16 0x8000#16 = 0 by decide]
  norm_num

/-! ### Witnesses: for each statement with hypotheses, states and operands that meet them all -/

theorem witness_StepKeepsTheInvariant : ∃ s t : State, s.Inv ∧ step s = .next t ∧ s.pending ≠ [] :=
  ⟨{ bench 5#32 7#16 [.decode .previous] with results := [.f16 0x7C01#16] }, _, by decide, rfl, by decide⟩
theorem witness_StepAnswersWhereTheInvariantHolds :
    ∃ s : State, s.Inv ∧ s.pending = [⟨0, .encode .previous⟩] :=
  ⟨{ bench 5#32 7#16 [.encode .previous] with results := [.f32 0x7F802000#32] }, by decide, rfl⟩
theorem witness_StepRunsTheDecodedInstruction : ∃ (s : State) (st : Stimulus) (rest : List Stimulus) (pw : PortWord)
    (i : Instr), s.pending = st :: rest ∧ st.request.presented s.lastResult = some pw ∧ decode pw.raw = .ok i :=
  ⟨bench 5#32 7#16 [.decode (.word 0x7BFF#16)], ⟨0, .decode (.word 0x7BFF#16)⟩, [], .onDecoder 0x7BFF#16,
    .decode 0x7BFF#16, by decide⟩
theorem witness_StepWithoutAnEvaluation : State.reset.pending = [] ∧
    (∃ s : State, s.pending = { unit := 0, request := .encode .previous } :: [] ∧
      ∀ w, s.lastResult ≠ some (.f32 w)) ∧
    (∃ s : State, s.pending = { unit := 0, request := .decode .previous } :: [] ∧
      ∀ h, s.lastResult ≠ some (.f16 h)) :=
  ⟨rfl, ⟨{ bench 0#32 0#16 [.encode .previous] with results := [.f16 0#16] }, rfl, fun _ h => by cases h⟩,
    ⟨bench 0#32 0#16 [.decode .previous], rfl, fun _ h => by cases h⟩⟩
theorem witness_PlacedWordIsTheOneThatRuns : decodeTableWord 32 0xFFFFFFFF = some (.encode 0xFFFFFFFF#32) ∧
    decodeTableWord 16 0xFFFF = some (.decode 0xFFFF#16) := by decide
theorem witness_EvaluationsOnDifferentBlocksCommute :
    Drive.wf (bench 5#32 7#16 []).encoders ∧ Drive.wf (bench 5#32 7#16 []).decoders ∧
    ((requestOf (.encode 0#32)).block ≠ (requestOf (.decode 0#16)).block ∨ 0 ≠ 0) ∧
    ((requestOf (.encode 0#32)).block ≠ (requestOf (.encode 1#32)).block ∨ 0 ≠ 1) := by decide
theorem witness_AnyOrderGivesEachEvaluationItsWord :
    List.Perm [(0, Instr.encode 0x3F800000#32), (0, Instr.decode 0x3C00#16)]
      [(0, Instr.decode 0x3C00#16), (0, Instr.encode 0x3F800000#32)] := List.Perm.swap _ _ _
theorem witness_RunDeliversTheOutcome : outcome (bench 0#32 0#16 [.decode (.word 0x7C01#16), .encode .previous]).lastResult
    ((bench 0#32 0#16 [.decode (.word 0x7C01#16), .encode .previous]).pending.map Stimulus.request) =
      some [.f32 0x7F802000#32, .f16 0x7E01#16] := by decide
theorem witness_ProgramReadsBackFromItsText :
    List.all [Line.encode .previous (some 0#16) (some [';', ' ']), .decode (.word 0xABCD#16) none none]
      Line.wellFormed = true := by decide
theorem witness_ZeroInputsGiveZeroOutputs : (bench 5#32 7#16 []).encoderIn 1 = 0x00000000#32 ∧
    (bench 5#32 7#16 []).decoderIn 1 = 0x0000#16 := by decide
theorem witness_RegisteredBlocksDeliverTheSameWordsLater :
    ([1#32, 2#32, 3#32] : List Word32)[1]? = some 2#32 ∧ 1 + 1 < ([1#32, 2#32, 3#32] : List Word32).length ∧
    ([1#16] : List Word16)[0]? = some 1#16 ∧ 0 + 0 < ([1#16] : List Word16).length := by decide
theorem witness_EncodeOfDecodeIsTheWord :
    decode { block := .decoder, nbits := 16, bits := 0xFFFF } = .ok (.decode 0xFFFF#16) := by decide

/-- One word at each end of every case of ENCODE (the case table under R60). -/
theorem witness_encode_cases :
    (0x7F800000#32).extractLsb 30 23 = 0xFF#8 ∧ (0xFFFFFFFF#32).extractLsb 30 23 = 0xFF#8 ∧
    [0x47800000#32, 0xFF7FFFFF#32].all (fun w => w.extractLsb 30 23 ≠ 0xFF#8 ∧
      31 ≤ ((w.extractLsb 30 23).toNat : Int) - 127 + 15) = true ∧
    [0x80000000#32, 0x32FFFFFF#32].all (fun w => ((w.extractLsb 30 23).toNat : Int) - 127 + 15 < -10) = true ∧
    (0x007FFFFF#32).extractLsb 30 23 = 0#8 ∧
    [0x33000000#32, 0x387FFFFF#32].all (fun w => -10 ≤ ((w.extractLsb 30 23).toNat : Int) - 127 + 15 ∧
      ((w.extractLsb 30 23).toNat : Int) - 127 + 15 ≤ 0) = true ∧
    [0x38800000#32, 0x477FFFFF#32].all (fun w => 1 ≤ ((w.extractLsb 30 23).toNat : Int) - 127 + 15 ∧
      ((w.extractLsb 30 23).toNat : Int) - 127 + 15 ≤ 30) = true := by decide
theorem witness_EncodeSignPassesThrough : (0x33000001#32).extractLsb 30 0 = (0xB3000001#32).extractLsb 30 0 := by decide
/-- A carry at `e = 0`, at `e = 1`, at `e = 29` and at `e = 30`. -/
theorem witness_RoundingCarryIsNeverClamped :
    ((0 : Int) = (((0x387FE000#32).extractLsb 30 23).toNat : Int) - 127 + 15 ∧
      rne (2 ^ 23 + ((0x387FE000#32).extractLsb 22 0).toNat) (14 - (0 : Int)).toNat = 0x400) ∧
    ((1 : Int) = (((0x38FFF000#32).extractLsb 30 23).toNat : Int) - 127 + 15 ∧
      rne ((0x38FFF000#32).extractLsb 22 0).toNat 13 = 0x400) ∧
    ((29 : Int) = (((0x46FFF000#32).extractLsb 30 23).toNat : Int) - 127 + 15 ∧
      rne ((0x46FFF000#32).extractLsb 22 0).toNat 13 = 0x400) ∧
    ((30 : Int) = (((0x477FF000#32).extractLsb 30 23).toNat : Int) - 127 + 15 ∧
      rne ((0x477FF000#32).extractLsb 22 0).toNat 13 = 0x400) := by decide

/-- A finite word at the threshold, and one below it that lies above 65504. -/
theorem witness_number_clauses : (0x477FF000#32).extractLsb 30 23 ≠ 0xFF#8 ∧ 65520 ≤ |number32 0x477FF000#32| ∧
    (0x477FE001#32).extractLsb 30 23 ≠ 0xFF#8 ∧ 65504 < |number32 0x477FE001#32| ∧ |number32 0x477FE001#32| < 65520 := by
  refine ⟨by decide, by rw [value_of_65520]; norm_num, by decide, ?_⟩
  rw [number32_eq, show units32 0x477FE001#32 = (65504 * 256 + 1) * 2 ^ 141 by decide,
    show (decompose32 0x477FE001#32).s.toNat = 0 by decide]
  norm_num [abs_of_pos]
theorem witness_SubnormalRangeRoundsToTheNearestMultiple :
    102 ≤ ((0x33000000#32).extractLsb 30 23).toNat ∧ ((0x33000000#32).extractLsb 30 23).toNat ≤ 112 ∧
    102 ≤ ((0xB87FFFFF#32).extractLsb 30 23).toNat ∧ ((0xB87FFFFF#32).extractLsb 30 23).toNat ≤ 112 := by decide
theorem witness_EncodeIsMonotone : (0x3F800000#32).extractLsb 30 23 ≠ 0xFF#8 ∧ (0x477FE000#32).extractLsb 30 23 ≠ 0xFF#8 ∧
    (fp16Encode 0x3F800000#32).extractLsb 14 10 ≠ 0x1F#5 ∧ (fp16Encode 0x477FE000#32).extractLsb 14 10 ≠ 0x1F#5 ∧
    number32 0x3F800000#32 < number32 0x477FE000#32 := by
  refine ⟨by decide, by decide, by decide, by decide, ?_⟩
  rw [value_of_one.1, value_of_65504.1]
  norm_num
theorem witness_SpecialValuesStaySpecial_and_NamedConstants :
    (0x7F800001#32).extractLsb 30 23 = 0xFF#8 ∧ (0x7F800001#32).extractLsb 22 0 ≠ 0#23 ∧
    (0x7C01#16).extractLsb 14 10 = 0x1F#5 ∧ (0x7C01#16).extractLsb 9 0 ≠ 0#10 := by decide

/-- One word at each end of every case of DECODE. -/
theorem witness_decode_cases :
    (0x7C00#16).extractLsb 14 10 = 0x1F#5 ∧ (0xFFFF#16).extractLsb 14 10 = 0x1F#5 ∧
    ((0x8000#16).extractLsb 14 10 = 0#5 ∧ (0x8000#16).extractLsb 9 0 = 0#10) ∧
    [0x0001#16, 0x83FF#16].all (fun h => h.extractLsb 14 10 = 0#5 ∧ h.extractLsb 9 0 ≠ 0#10) = true ∧
    [0x0400#16, 0xFBFF#16].all (fun h => h.extractLsb 14 10 ≠ 0#5 ∧ h.extractLsb 14 10 ≠ 0x1F#5) = true := by decide
theorem witness_DecodeOfSubnormalInClosedForm :
    ((0x0001#16).extractLsb 14 10 = 0#5 ∧ ((0x0001#16).extractLsb 9 0).toNat.testBit 0 = true ∧
      ((0x0001#16).extractLsb 9 0).toNat < 2 ^ (0 + 1)) ∧
    ((0x03FF#16).extractLsb 14 10 = 0#5 ∧ ((0x03FF#16).extractLsb 9 0).toNat.testBit 9 = true ∧
      ((0x03FF#16).extractLsb 9 0).toNat < 2 ^ (9 + 1)) := by decide
theorem witness_DecodeSignPassesThrough : (0x0001#16).extractLsb 14 0 = (0x8001#16).extractLsb 14 0 := by decide
theorem witness_DecodeIsExact : (∀ q, value16 0x0001#16 ≠ .nan q) ∧ (∀ q, value16 0xFC00#16 ≠ .nan q) ∧
    value16 0x7C01#16 = .nan false ∧ value16 0x7E00#16 = .nan true := by
  have h1 : value16 0x0001#16 = .number (number16 0x0001#16) := by
    unfold value16
    exact if_neg (by decide)
  have h2 : value16 0xFC00#16 = .infinity true := by decide
  refine ⟨fun q h => ?_, fun q h => ?_, by decide, by decide⟩
  · rw [h1] at h
    cases h
  · rw [h2] at h
    cases h
theorem witness_DecodeIsInjectiveWithItsImage : fp16Decode 0x7C01#16 = fp16Decode 0x7C01#16 := rfl
theorem witness_RoundTripOfEveryWordButSignalingNaN :
    [0x7C00#16, 0x7E00#16, 0x83FF#16].all (fun b =>
      ¬ (b.extractLsb 14 10 = 0x1F#5 ∧ b.extractLsb 9 0 ≠ 0#10 ∧ b.getLsbD 9 = false)) = true := by decide
theorem witness_EncodeNeverGivesASignalingNaN : [0x7C01#16, 0xFDFF#16].all (fun b =>
    b.extractLsb 14 10 = 0x1F#5 ∧ b.extractLsb 9 0 ≠ 0#10 ∧ b.getLsbD 9 = false) = true := by decide
theorem witness_ExactInputsAreNotRounded :
    ((0x3F800000#32).extractLsb 30 23 ≠ 0xFF#8 ∧ (0x3C00#16).extractLsb 14 10 ≠ 0x1F#5 ∧
      number32 0x3F800000#32 = number16 0x3C00#16 ∧ number16 0x3C00#16 ≠ 0) ∧
    ((0x80000000#32).extractLsb 30 23 ≠ 0xFF#8 ∧ (0x8000#16).extractLsb 14 10 ≠ 0x1F#5 ∧
      number32 0x80000000#32 = number16 0x8000#16 ∧ number16 0x8000#16 = 0) := by
  refine ⟨⟨by decide, by decide, ?_, ?_⟩, by decide, by decide, ?_, value_of_minus_zero.2⟩
  · rw [value_of_one.1, value_of_one.2]
  · rw [value_of_one.2]; norm_num
  · rw [value_of_minus_zero.1, value_of_minus_zero.2]
theorem witness_DecodeThenEncodeThroughTheBench : (bench 0#32 0#16 [.decode (.word 0x7C01#16), .encode .previous]).pending =
    [⟨0, .decode (.word 0x7C01#16)⟩, ⟨0, .encode .previous⟩] := rfl
theorem witness_EncodeDecodeEncodeThroughTheBench :
    (bench 0#32 0#16 [.encode (.word 0x3EAAAAAB#32), .decode .previous, .encode .previous]).pending =
    [⟨0, .encode (.word 0x3EAAAAAB#32)⟩, ⟨0, .decode .previous⟩, ⟨0, .encode .previous⟩] := rfl
/-- `k = 1` is the least shift; `3 / 2` is halfway. -/
theorem witness_RneIsNearestWithTiesToEven : 1 ≤ 1 ∧ |((3 : ℕ) : ℚ) / 2 ^ 1 - rne 3 1| = 1 / 2 := by
  rw [show rne 3 1 = 2 by decide]
  norm_num [abs_of_neg]
/-- Both ends of every range a clause quantifies over. -/
theorem witness_IntermediateResultsFitTheirFields : (0xFE#8 ≠ 0xFF#8 ∧ 0x00#8 ≠ 0xFF#8) ∧
    ((-10 : Int) ≤ -10 ∧ (-10 : Int) ≤ 0 ∧ (-10 : Int) ≤ 0 ∧ (0 : Int) ≤ 0) ∧
    (14 ≤ 14 ∧ 14 ≤ 24 ∧ 24 ≤ 24) ∧
    ((1 : Int) ≤ 1 ∧ (1 : Int) ≤ 30 ∧ (30 : Int) ≤ 30) ∧ (0x000001#23 ≠ 0#23 ∧ 0x7FFFFF#23 ≠ 0#23) ∧
    (0x01#5 ≠ 0#5 ∧ 0x01#5 ≠ 0x1F#5 ∧ 0x1E#5 ≠ 0#5 ∧ 0x1E#5 ≠ 0x1F#5) ∧
    (0x001#10 ≠ 0#10 ∧ 0x3FF#10 ≠ 0#10) := by decide
/-- The stated ends of the rows of R55 are reached: `sh = 14` and `24` (its note on the full-width shift, round bit 1),
the quieted fraction's least value, and the most passes of the loop. -/
theorem test_r55_ends : keptBits (significand 0#23) 14 = 0x200 ∧ keptBits (significand 0x7FFFFF#23) 14 = 0x3FF ∧
    keptBits (significand 0x7FFFFF#23) 24 = 0 ∧ roundBit (significand 0#23) 24 = true ∧
    quietedFraction 0x000001#23 = 0x200#10 ∧ normalise 10 1 1 = (0x400, -9) := by decide
theorem witness_FiniteMagnitudesRiseWithTheirWords : 0x03FF < 0x0400 ∧ 0x0400 ≤ 0x7BFF ∧ 0x7BFE < 0x7BFF := by decide

end Sys2Proof.Machine.Tests
end

section
/-! PROOFS. The scope of the hardware (spec/00_scope.md): both operations are total functions of the operand. -/

namespace Sys2Proof.Machine

/-- Which word an evaluation delivers is decided by the instruction alone: the state appears only on the left. -/
@[simp] theorem delivers_iff {i : Instr} {s : State} {r : OutWord} : Delivers i s r ↔ r = evaluate i := by
  constructor
  · rintro ⟨t, ht, hr⟩
    obtain rfl : afterEvaluation i s = t := by simpa [exec_eq] using ht
    simpa [afterEvaluation_results] using hr.symm
  · rintro rfl
    exact ⟨afterEvaluation i s, exec_eq i s, afterEvaluation_results i s⟩

/-- ENCODE delivers the encoder's function of its operand and nothing else. -/
theorem delivers_encode_iff {w : Word32} {s : State} {h : Word16} :
    Delivers (.encode w) s (.f16 h) ↔ h = fp16Encode w := by
  simp [evaluate]

/-- DECODE delivers the decoder's function of its operand and nothing else. -/
theorem delivers_decode_iff {h : Word16} {s : State} {w : Word32} :
    Delivers (.decode h) s (.f32 w) ↔ w = fp16Decode h := by
  simp [evaluate]

/-- Settles O10: the one word is the block's function of the operand. Uniqueness needs a single state only, and
the state after reset serves. -/
theorem everyInputHasOneOutputInEveryState : Obligations.EveryInputHasOneOutputInEveryState := by
  unfold Obligations.EveryInputHasOneOutputInEveryState
  constructor
  · intro w
    exact ⟨fp16Encode w, fun _ => delivers_encode_iff.mpr rfl,
      fun _ hall => delivers_encode_iff.mp (hall State.reset)⟩
  · intro h
    exact ⟨fp16Decode h, fun _ => delivers_decode_iff.mpr rfl,
      fun _ hall => delivers_decode_iff.mp (hall State.reset)⟩

end Sys2Proof.Machine
end

section
/-! PROOFS. The bench (spec/10_state.md): what an evaluation leaves on every port, that evaluations on different
blocks commute, and that a run delivers the outcome of its requests. -/

namespace Sys2Proof.Machine

/-! ### Output ports -/

@[simp] theorem State.deliver_encoderOut (s : State) (r : OutWord) (v : Nat) :
    (s.deliver r).encoderOut v = s.encoderOut v := rfl
@[simp] theorem State.deliver_decoderOut (s : State) (r : OutWord) (v : Nat) :
    (s.deliver r).decoderOut v = s.decoderOut v := rfl

@[simp] theorem State.driveEncoder_encoderOut (s : State) (u v : Nat) (w : Word32) :
    (s.driveEncoder u w).encoderOut v = if u = v then fp16Encode w else s.encoderOut v :=
  (congrArg fp16Encode (s.driveEncoder_encoderIn u v w)).trans (apply_ite fp16Encode _ _ _)

@[simp] theorem State.driveDecoder_decoderOut (s : State) (u v : Nat) (h : Word16) :
    (s.driveDecoder u h).decoderOut v = if u = v then fp16Decode h else s.decoderOut v :=
  (congrArg fp16Decode (s.driveDecoder_decoderIn u v h)).trans (apply_ite fp16Decode _ _ _)

/-- Settles O7: driving one encoder's input and delivering a word is all that ENCODE does (`execEncode_eq`). -/
theorem encodeCompletesWithItsFrame : Obligations.EncodeCompletesWithItsFrame := by
  unfold Obligations.EncodeCompletesWithItsFrame
  intro w s
  refine ⟨_, execEncode_eq w s, rfl, ?input, ?output, ?others, fun u => ⟨rfl, rfl⟩, rfl, rfl, rfl⟩
  case input => simp
  case output => simp
  case others =>
    intro u hu
    simp [hu.symm]

/-- Settles O8: driving one decoder's input and delivering a word is all that DECODE does (`execDecode_eq`). -/
theorem decodeCompletesWithItsFrame : Obligations.DecodeCompletesWithItsFrame := by
  unfold Obligations.DecodeCompletesWithItsFrame
  intro h s
  refine ⟨_, execDecode_eq h s, rfl, ?input, ?output, ?others, fun u => ⟨rfl, rfl⟩, rfl, rfl, rfl⟩
  case input => simp
  case output => simp
  case others =>
    intro u hu
    simp [hu.symm]

/-! ### Zero -/

theorem fp16Encode_zero : fp16Encode 0#32 = 0#16 := by decide

theorem fp16Decode_zero : fp16Decode 0#16 = 0#32 := by decide

/-- Settles O16: an output port is the block's function of its input port, after reset as in any other state. -/
theorem zeroInputsGiveZeroOutputs : Obligations.ZeroInputsGiveZeroOutputs := by
  unfold Obligations.ZeroInputsGiveZeroOutputs
  have hencoder (s : State) (u : Nat) (h : s.encoderIn u = 0#32) : s.encoderOut u = 0#16 :=
    (congrArg fp16Encode h).trans fp16Encode_zero
  have hdecoder (s : State) (u : Nat) (h : s.decoderIn u = 0#16) : s.decoderOut u = 0#32 :=
    (congrArg fp16Decode h).trans fp16Decode_zero
  exact ⟨hencoder, hdecoder, fun u => ⟨hencoder State.reset u rfl, hdecoder State.reset u rfl⟩⟩

/-! ### Evaluating the next request -/

/-- The state after evaluating `i` on block `u` of its kind, with `rest` left on the environment's list. -/
def evaluatedAt (u : Nat) (i : Instr) (rest : List Stimulus) (s : State) : State :=
  afterEvaluation i { s with pending := rest, target := u }

@[simp] theorem evaluatedAt_pending (u : Nat) (i : Instr) (rest : List Stimulus) (s : State) :
    (evaluatedAt u i rest s).pending = rest := afterEvaluation_pending i _

@[simp] theorem evaluatedAt_results (u : Nat) (i : Instr) (rest : List Stimulus) (s : State) :
    (evaluatedAt u i rest s).results = s.results ++ [evaluate i] := afterEvaluation_results i _

@[simp] theorem evaluatedAt_lastResult (u : Nat) (i : Instr) (rest : List Stimulus) (s : State) :
    (evaluatedAt u i rest s).lastResult = some (evaluate i) := by
  simp [State.lastResult]

/-- A step evaluates the first pending request, when that presents a word. -/
theorem step_of_presented {s : State} {st : Stimulus} {rest : List Stimulus} {pw : PortWord}
    (hp : s.pending = st :: rest) (hw : st.request.presented s.lastResult = some pw) :
    step s = .next (evaluatedAt st.unit (select pw) rest s) := by
  simp [step, State.fetch, hp, hw, exec_eq, evaluatedAt]

/-- A request with a word of its own is evaluated whatever was delivered before. -/
theorem step_requestOf {s : State} {u : Nat} {i : Instr} {rest : List Stimulus}
    (hp : s.pending = ⟨u, requestOf i⟩ :: rest) : step s = .next (evaluatedAt u i rest s) := by
  cases i with
  | encode w => exact step_of_presented (pw := .onEncoder w) hp rfl
  | decode h => exact step_of_presented (pw := .onDecoder h) hp rfl

/-! ### Runs -/

theorem RunsTo.refl (s : State) : RunsTo 0 s s := rfl

theorem RunsTo.head {k : Nat} {s s' t : State} (h : step s = .next s') (hr : RunsTo k s' t) :
    RunsTo (k + 1) s t := (run_succ k h).trans hr

/-! ### Evaluations on different blocks -/

/-- Driving two different ports of one kind in either order gives the same canonical list. -/
theorem Drive.write_comm {n : Nat} {d : Drive n} (hd : Drive.wf d) {u v : Nat} (huv : u ≠ v) (w x : BitVec n) :
    Drive.write (Drive.write d u w) v x = Drive.write (Drive.write d v x) u w := by
  refine Drive.ext_of_wf (Drive.write_wf v x (Drive.write_wf u w hd)) (Drive.write_wf u w (Drive.write_wf v x hd))
    fun k => ?_
  simp only [Drive.read_write]
  split_ifs with hv hu
  · exact absurd (hu.trans hv.symm) huv
  · rfl
  · rfl
  · rfl

/-- Two evaluations on different blocks leave the same driven words in either order: on blocks of different kinds
they write different lists, on blocks of one kind different ports of one list. -/
theorem evaluatedAt_comm_drives {s : State} {u v : Nat} {i j : Instr} (he : Drive.wf s.encoders)
    (hd : Drive.wf s.decoders) (hne : (requestOf i).block ≠ (requestOf j).block ∨ u ≠ v)
    (p p' q q' : List Stimulus) :
    (evaluatedAt v j p' (evaluatedAt u i p s)).encoders = (evaluatedAt u i q' (evaluatedAt v j q s)).encoders ∧
    (evaluatedAt v j p' (evaluatedAt u i p s)).decoders = (evaluatedAt u i q' (evaluatedAt v j q s)).decoders := by
  cases i with
  | encode w =>
    cases j with
    | encode x =>
      have huv : u ≠ v := hne.resolve_left fun hb => hb rfl
      exact ⟨Drive.write_comm he huv w x, rfl⟩
    | decode h => exact ⟨rfl, rfl⟩
  | decode h =>
    cases j with
    | encode w => exact ⟨rfl, rfl⟩
    | decode g =>
      have huv : u ≠ v := hne.resolve_left fun hb => hb rfl
      exact ⟨rfl, Drive.write_comm hd huv h g⟩

/-- Two requests with words of their own are evaluated one after the other. -/
theorem runsTo_two_requests (s : State) (u v : Nat) (i j : Instr) :
    RunsTo 2 { s with pending := [⟨u, requestOf i⟩, ⟨v, requestOf j⟩] }
      (evaluatedAt v j [] (evaluatedAt u i [⟨v, requestOf j⟩] s)) :=
  .head (step_requestOf rfl) (.head (step_requestOf (evaluatedAt_pending ..)) (.refl _))

/-- Settles O11: the driven words by `evaluatedAt_comm_drives`; the delivered words are the operations' own, so each
order lists them as the evaluations were made. -/
theorem evaluationsOnDifferentBlocksCommute : Obligations.EvaluationsOnDifferentBlocksCommute := by
  unfold Obligations.EvaluationsOnDifferentBlocksCommute
  intro s u v i j he hd hne
  obtain ⟨hencoders, hdecoders⟩ := evaluatedAt_comm_drives he hd hne [⟨v, requestOf j⟩] [] [⟨u, requestOf i⟩] []
  exact ⟨evaluate i, evaluate j, _, _, runsTo_two_requests s u v i j, runsTo_two_requests s v u j i,
    hencoders, hdecoders, by simp, by simp⟩

/-! ### The outcome of a run -/

theorem outcome_nil (prev : Option OutWord) : outcome prev [] = some [] := rfl

/-- A list of requests has an outcome exactly when its first request presents a word and the others have an outcome
after the word that gives. -/
theorem outcome_cons_eq_some_iff {prev : Option OutWord} {r : Request} {rest : List Request} {os : List OutWord} :
    outcome prev (r :: rest) = some os ↔
      ∃ pw os', r.presented prev = some pw ∧ outcome (some (evaluate (select pw))) rest = some os' ∧
        os = evaluate (select pw) :: os' := by
  rw [outcome]
  cases r.presented prev with
  | none => simp
  | some pw => simp [eq_comm]

/-- Settles O13, by induction on the pending requests: each step evaluates the first of them, and the word it
delivers is the one `%` stands for in the rest. -/
theorem runDeliversTheOutcome : Obligations.RunDeliversTheOutcome := by
  unfold Obligations.RunDeliversTheOutcome
  intro s rs hout
  induction hp : s.pending generalizing s rs with
  | nil =>
    obtain rfl : [] = rs := by simpa [hp, outcome_nil] using hout
    exact ⟨s, .refl s, hp, by simp⟩
  | cons st rest ih =>
    rw [hp, List.map_cons] at hout
    obtain ⟨pw, os, hw, hos, rfl⟩ := outcome_cons_eq_some_iff.mp hout
    obtain ⟨t, hrun, hend, hres⟩ := ih (evaluatedAt st.unit (select pw) rest s) os (by simpa using hos) (by simp)
    exact ⟨t, .head (step_of_presented hp hw) hrun, hend, by simpa using hres⟩

end Sys2Proof.Machine
end

section
/-! PROOFS. The order of evaluations (spec/20_memory.md R24): each evaluation gets the same word in any order. -/

namespace Sys2Proof.Machine

/-- A request with an operand word of its own presents it whatever was delivered before. -/
theorem requestOf_presented (prev : Option OutWord) (i : Instr) :
    ∃ pw, (requestOf i).presented prev = some pw ∧ select pw = i := by
  cases i with
  | encode w => exact ⟨.onEncoder w, rfl, rfl⟩
  | decode h => exact ⟨.onDecoder h, rfl, rfl⟩

/-- Requests with operand words of their own have the outcome of their operations, each by itself. -/
theorem outcome_map_requestOf (prev : Option OutWord) (is : List Instr) :
    outcome prev (is.map requestOf) = some (is.map evaluate) := by
  induction is generalizing prev with
  | nil => exact outcome_nil prev
  | cons i is ih =>
    obtain ⟨pw, hpw, rfl⟩ := requestOf_presented prev i
    exact outcome_cons_eq_some_iff.mpr ⟨pw, is.map evaluate, hpw, ih _, rfl⟩

/-- A run of addressed evaluations delivers to each its operation's word, whatever blocks they are addressed to. -/
theorem runsTo_evaluations (s : State) (p : List (Nat × Instr)) :
    ∃ t, RunsTo p.length { s with pending := p.map fun x => ⟨x.1, requestOf x.2⟩ } t ∧
      t.results = s.results ++ p.map fun x => evaluate x.2 := by
  have hout := outcome_map_requestOf s.lastResult (p.map Prod.snd)
  obtain ⟨t, hrun, -, hres⟩ := runDeliversTheOutcome { s with pending := p.map fun x => ⟨x.1, requestOf x.2⟩ }
    (p.map fun x => evaluate x.2) (by simpa [State.lastResult, Function.comp_def] using hout)
  exact ⟨t, by simpa using hrun, hres⟩

/-- Settles O12: the word paired with an evaluation is a function of the evaluation alone, so the pairs are the
image of the list under one map, and a map keeps permutations. -/
theorem anyOrderGivesEachEvaluationItsWord : Obligations.AnyOrderGivesEachEvaluationItsWord := by
  unfold Obligations.AnyOrderGivesEachEvaluationItsWord
  intro s p q hpq
  obtain ⟨t, hrun, hres⟩ := runsTo_evaluations s p
  obtain ⟨t', hrun', hres'⟩ := runsTo_evaluations s q
  refine ⟨t, t', _, _, hrun, hrun', hres, hres', List.length_map _, List.length_map _, ?_⟩
  simpa only [List.map_prod_left_eq_zip] using hpq.map fun x => (x, evaluate x.2)

end Sys2Proof.Machine
end

section
/-! PROOFS. The text of stimulus programs (spec/30_encoding.md section 6, R36): each reading function gives back what
the printing function of the same piece wrote, with whatever follows it left over. -/

namespace Sys2Proof.Machine

/-! ### Words and operands -/

theorem hexValue_hexChar {d : Nat} (h : d < 16) : hexValue (hexChar d) = some d := by
  revert d
  decide

theorem readLiteral_append (lit cs : List Char) : readLiteral lit (lit ++ cs) = some cs := by
  induction lit with
  | nil => rfl
  | cons l lit ih => simpa [readLiteral] using ih

/-- Reading `k` printed digits shifts what was read before by `k` digits and adds the digits' value. -/
theorem readHex_printHex (k acc v : Nat) (cs : List Char) :
    readHex k acc (printHex k v ++ cs) = some (acc * 16 ^ k + v % 16 ^ k, cs) := by
  induction k generalizing acc with
  | zero => simp [printHex, readHex, Nat.mod_one]
  | succ k ih =>
    have hd : hexValue (hexChar (v / 16 ^ k % 16)) = some (v / 16 ^ k % 16) :=
      hexValue_hexChar (Nat.mod_lt _ (by decide))
    have hvalue : (16 * acc + v / 16 ^ k % 16) * 16 ^ k + v % 16 ^ k = acc * 16 ^ (k + 1) + v % 16 ^ (k + 1) := by
      rw [Nat.mod_pow_succ]
      ring
    simp only [printHex, List.cons_append, readHex, hd, ih, hvalue]

theorem readWord_printWord (k : Nat) (w : BitVec (4 * k)) (cs : List Char) :
    readWord k (printWord k w ++ cs) = some (w, cs) := by
  have hmark : readLiteral ['0', 'x'] (printWord k w ++ cs) = some (printHex k w.toNat ++ cs) :=
    readLiteral_append ['0', 'x'] _
  have hlt : w.toNat < 16 ^ k := by simpa [pow_mul] using w.isLt
  simp [readWord, hmark, readHex_printHex, Nat.mod_eq_of_lt hlt]

theorem readOperand_printOperand (k : Nat) (x : Operand (4 * k)) (cs : List Char) :
    readOperand k (printOperand k x ++ cs) = some (x, cs) := by
  cases x with
  | word w =>
    calc readOperand k (printWord k w ++ cs)
        = (readWord k (printWord k w ++ cs)).map fun r => (.word r.1, r.2) := rfl
      _ = some (.word w, cs) := by rw [readWord_printWord]; rfl
  | previous => rfl

/-! ### Lines -/

theorem readComment_printComment (c : Option (List Char)) : readComment (printComment c) = some c := by
  cases c with
  | none => rfl
  | some t => rfl

theorem readTail_printTail (k : Nat) (e : Option (BitVec (4 * k))) (c : Option (List Char)) :
    readTail k (printExpected k e ++ printComment c) = some (e, c) := by
  cases e with
  | none =>
    cases c with
    | none => rfl
    | some t => rfl
  | some w =>
    have harrow : readSpaces (printExpected k (some w) ++ printComment c) =
        some ('-' :: '>' :: ' ' :: (printWord k w ++ printComment c)) := rfl
    have hspace : readSpaces (' ' :: (printWord k w ++ printComment c)) = some (printWord k w ++ printComment c) :=
      rfl
    simp [readTail, harrow, hspace, readWord_printWord, readComment_printComment]

/-- What follows the name of the operation. -/
theorem readRest_printRest (k j : Nat) (x : Operand (4 * k)) (e : Option (BitVec (4 * j)))
    (c : Option (List Char)) :
    readRest k j (' ' :: (printOperand k x ++ (printExpected j e ++ printComment c))) = some (x, e, c) := by
  have hspace : readSpaces (' ' :: (printOperand k x ++ (printExpected j e ++ printComment c))) =
      some (printOperand k x ++ (printExpected j e ++ printComment c)) := by
    cases x with
    | word w => rfl
    | previous => rfl
  simp [readRest, hspace, readOperand_printOperand, readTail_printTail]

theorem readLine_printLine (l : Line) : readLine (printLine l) = some l := by
  cases l with
  | encode x e c =>
    have hname : readLiteral ['E', 'N', 'C', 'O', 'D', 'E'] (printLine (.encode x e c)) =
        some (' ' :: (printOperand 8 x ++ (printExpected 4 e ++ printComment c))) := by
      simp [printLine, readLiteral]
    rw [readLine, hname]
    simp only [readRest_printRest 8 4 x e c, Option.map_some]
  | decode x e c =>
    have hother : readLiteral ['E', 'N', 'C', 'O', 'D', 'E'] (printLine (.decode x e c)) = none := rfl
    have hname : readLiteral ['D', 'E', 'C', 'O', 'D', 'E'] (printLine (.decode x e c)) =
        some (' ' :: (printOperand 4 x ++ (printExpected 8 e ++ printComment c))) := by
      simp [printLine, readLiteral]
    rw [readLine, hother, hname]
    simp only [readRest_printRest 4 8 x e c, Option.map_some]

/-! ### A printed line is one line -/

theorem newLine_notMem_printHex (k v : Nat) : '\n' ∉ printHex k v := by
  have hdigit : ∀ d < 16, hexChar d ≠ '\n' := by decide
  induction k with
  | zero => exact List.not_mem_nil
  | succ k ih => exact List.not_mem_cons_of_ne_of_not_mem (hdigit _ (Nat.mod_lt _ (by decide))).symm ih

theorem newLine_notMem_printOperand (k : Nat) (x : Operand (4 * k)) : '\n' ∉ printOperand k x := by
  cases x with
  | word w => simp [printOperand, printWord, newLine_notMem_printHex]
  | previous => simp [printOperand]

theorem newLine_notMem_printExpected (k : Nat) (e : Option (BitVec (4 * k))) : '\n' ∉ printExpected k e := by
  cases e with
  | none => exact List.not_mem_nil
  | some w => simp [printExpected, printWord, newLine_notMem_printHex]

theorem newLine_notMem_printComment {c : Option (List Char)} (h : '\n' ∉ c.getD []) : '\n' ∉ printComment c := by
  cases c with
  | none => exact List.not_mem_nil
  | some t => simpa [printComment] using h

/-- Only its comment could put a new line into a printed line. -/
theorem newLine_notMem_printLine {l : Line} (h : l.wellFormed = true) : '\n' ∉ printLine l := by
  have hc : '\n' ∉ l.comment.getD [] := fun hmem => by
    simpa using List.all_eq_true.mp h '\n' hmem
  have hcomment := newLine_notMem_printComment hc
  cases l with
  | encode x e c =>
    simpa [printLine, Line.comment, newLine_notMem_printOperand, newLine_notMem_printExpected] using hcomment
  | decode x e c =>
    simpa [printLine, Line.comment, newLine_notMem_printOperand, newLine_notMem_printExpected] using hcomment

/-- Text without a new line, up to the next new line, is one line. -/
theorem splitLines_append_newLine {l : List Char} (h : '\n' ∉ l) (cur cs : List Char) :
    splitLines cur (l ++ '\n' :: cs) = (splitLines [] cs).map ((cur ++ l) :: ·) := by
  induction l generalizing cur with
  | nil => simp [splitLines]
  | cons c l ih =>
    have hc : c ≠ '\n' := (List.ne_of_not_mem_cons h).symm
    simp [splitLines, hc, ih (List.not_mem_of_not_mem_cons h)]

/-! ### Programs -/

theorem splitLines_printProgram {p : List Line} (h : ∀ l ∈ p, l.wellFormed = true) :
    splitLines [] (printProgram p) = some (p.map printLine) := by
  induction p with
  | nil => rfl
  | cons l p ih =>
    obtain ⟨hl, hp⟩ := List.forall_mem_cons.mp h
    rw [printProgram, splitLines_append_newLine (newLine_notMem_printLine hl), ih hp]
    rfl

theorem readLines_map_printLine (p : List Line) : readLines (p.map printLine) = some p := by
  induction p with
  | nil => rfl
  | cons l p ih => simp [readLines, readLine_printLine, ih]

/-- Settles O15: the printed text splits at its new lines into the printed lines, and each of them reads back. -/
theorem programReadsBackFromItsText : Obligations.ProgramReadsBackFromItsText := by
  unfold Obligations.ProgramReadsBackFromItsText
  intro p hp
  rw [readProgram, splitLines_printProgram (List.all_eq_true.mp hp)]
  exact readLines_map_printLine p

end Sys2Proof.Machine
end

section
/-! PROOFS. Operands (spec/30_encoding.md R34, R35, R36): which `%` stand for a word, and which raw words are operands
of which block. -/

namespace Sys2Proof.Machine

theorem exists_outcome_cons_iff (prev : Option OutWord) (r : Request) (rest : List Request) :
    (∃ os, outcome prev (r :: rest) = some os) ↔
      ∃ pw, r.presented prev = some pw ∧ ∃ os, outcome (some (evaluate (select pw))) rest = some os := by
  simp only [outcome_cons_eq_some_iff]
  constructor
  · rintro ⟨_, pw, os, hpw, hos, rfl⟩
    exact ⟨pw, hpw, os, hos⟩
  · rintro ⟨pw, hpw, os, hos⟩
    exact ⟨_, pw, os, hpw, hos, rfl⟩

/-- Settles O14, by induction on the requests: the first presents a word exactly when it is bound
(`presented_isSome`), and that word is of the kind of the request (`presented_block`), which is what binds the rest. -/
theorem outcomeExistsExactlyWhenBound : Obligations.OutcomeExistsExactlyWhenBound := by
  unfold Obligations.OutcomeExistsExactlyWhenBound
  intro prev rs
  induction rs generalizing prev with
  | nil => simp [outcome_nil, boundAll]
  | cons r rest ih =>
    rw [exists_outcome_cons_iff, boundAll, ← presented_isSome]
    cases hpw : r.presented prev with
    | none => simp
    | some pw => simp [ih, presented_block hpw]

end Sys2Proof.Machine

namespace Sys2Proof

/-- A raw word is an operand exactly when it is a whole word of its port: every pattern is one (R35). -/
theorem exists_decode_eq_ok_iff (r : RawWord) :
    (∃ i, decode r = .ok i) ↔ r.nbits = r.block.inWidth ∧ r.bits < 2 ^ r.nbits := by
  unfold decode
  split_ifs with hwidth habove
  · simp [hwidth]
  · simp [habove]
  · have hwhole : r.nbits = r.block.inWidth ∧ r.bits < 2 ^ r.nbits := ⟨not_not.mp hwidth, not_le.mp habove⟩
    rcases r with ⟨_ | _, nbits, bits⟩
    · exact iff_of_true ⟨_, rfl⟩ hwhole
    · exact iff_of_true ⟨_, rfl⟩ hwhole

/-- The block a raw word is held out to selects the operation; no bit of the word does (R34). -/
theorem encode_block_of_decode {r : RawWord} {i : Instr} (h : decode r = .ok i) : (encode i).block = r.block := by
  unfold decode at h
  split_ifs at h
  rcases r with ⟨_ | _, nbits, bits⟩
  · cases h
    rfl
  · cases h
    rfl

/-- The operands of block `b`'s operation are the whole words of its port. -/
theorem exists_decode_for_block_iff (r : RawWord) (b : Block) :
    (∃ i, decode r = .ok i ∧ (encode i).block = b) ↔
      r.block = b ∧ r.nbits = b.inWidth ∧ r.bits < 2 ^ b.inWidth := by
  constructor
  · rintro ⟨i, hi, rfl⟩
    obtain ⟨hwidth, hbits⟩ := (exists_decode_eq_ok_iff r).mp ⟨i, hi⟩
    rw [encode_block_of_decode hi, ← hwidth]
    exact ⟨rfl, rfl, hbits⟩
  · rintro ⟨rfl, hwidth, hbits⟩
    obtain ⟨i, hi⟩ := (exists_decode_eq_ok_iff r).mpr ⟨hwidth, hwidth ▸ hbits⟩
    exact ⟨i, hi, encode_block_of_decode hi⟩

theorem exists_instr_encoder_iff (P : Instr → Prop) :
    (∃ i, P i ∧ (encode i).block = .encoder) ↔ ∃ w, P (.encode w) := by
  constructor
  · rintro ⟨_ | _, hi, hb⟩
    · exact ⟨_, hi⟩
    · cases hb
  · rintro ⟨w, hw⟩
    exact ⟨_, hw, rfl⟩

theorem exists_instr_decoder_iff (P : Instr → Prop) :
    (∃ i, P i ∧ (encode i).block = .decoder) ↔ ∃ h, P (.decode h) := by
  constructor
  · rintro ⟨_ | _, hi, hb⟩
    · cases hb
    · exact ⟨_, hi⟩
  · rintro ⟨h, hh⟩
    exact ⟨_, hh, rfl⟩

/-- Settles O20: the operations of the two blocks are told apart by the block alone, so each half is
`exists_decode_for_block_iff` of its block. -/
theorem everyWholeWordIsAnOperandOfItsBlock : Obligations.EveryWholeWordIsAnOperandOfItsBlock := by
  unfold Obligations.EveryWholeWordIsAnOperandOfItsBlock
  intro r
  exact ⟨(exists_instr_encoder_iff _).symm.trans (exists_decode_for_block_iff r .encoder),
    (exists_instr_decoder_iff _).symm.trans (exists_decode_for_block_iff r .decoder)⟩

end Sys2Proof
end

section
/-! PROOFS. The helpers (spec/40_helpers.md): compose and decompose, rounding to nearest, and the ranges of the
intermediate integers. -/

namespace Sys2Proof

/-! ### Compose and decompose (R51) -/

@[simp] theorem compose16_decompose16 (h : Word16) : compose16 (decompose16 h) = h := by
  have := h.isLt
  apply BitVec.eq_of_toNat_eq
  rw [compose16_toNat, decompose16_s_toNat, decompose16_E_toNat, decompose16_F_toNat]
  omega

@[simp] theorem compose32_decompose32 (w : Word32) : compose32 (decompose32 w) = w := by
  have := w.isLt
  apply BitVec.eq_of_toNat_eq
  rw [compose32_toNat, decompose32_s_toNat, decompose32_E_toNat, decompose32_F_toNat]
  omega

@[simp] theorem decompose16_compose16 (f : Fields16) : decompose16 (compose16 f) = f := by
  have := f.s.isLt; have := f.E.isLt; have := f.F.isLt
  have hs : (decompose16 (compose16 f)).s = f.s :=
    BitVec.eq_of_toNat_eq (by rw [decompose16_s_toNat, compose16_toNat]; omega)
  have hE : (decompose16 (compose16 f)).E = f.E :=
    BitVec.eq_of_toNat_eq (by rw [decompose16_E_toNat, compose16_toNat]; omega)
  have hF : (decompose16 (compose16 f)).F = f.F :=
    BitVec.eq_of_toNat_eq (by rw [decompose16_F_toNat, compose16_toNat]; omega)
  exact congr (congrArg₂ Fields16.mk hs hE) hF

@[simp] theorem decompose32_compose32 (f : Fields32) : decompose32 (compose32 f) = f := by
  have := f.s.isLt; have := f.E.isLt; have := f.F.isLt
  have hs : (decompose32 (compose32 f)).s = f.s :=
    BitVec.eq_of_toNat_eq (by rw [decompose32_s_toNat, compose32_toNat]; omega)
  have hE : (decompose32 (compose32 f)).E = f.E :=
    BitVec.eq_of_toNat_eq (by rw [decompose32_E_toNat, compose32_toNat]; omega)
  have hF : (decompose32 (compose32 f)).F = f.F :=
    BitVec.eq_of_toNat_eq (by rw [decompose32_F_toNat, compose32_toNat]; omega)
  exact congr (congrArg₂ Fields32.mk hs hE) hF

/-- Settles O22: a word and its fields are the same number, written in binary and by its places. -/
theorem composeAndDecomposeAreMutualInverses : Obligations.ComposeAndDecomposeAreMutualInverses := by
  unfold Obligations.ComposeAndDecomposeAreMutualInverses
  exact ⟨fun _ _ _ => rfl, fun _ _ _ => rfl, compose16_decompose16, decompose16_compose16,
    compose32_decompose32, decompose32_compose32⟩

end Sys2Proof

namespace Sys2Proof.Machine

/-! ### Rounding to nearest, ties to even (R54) -/

theorem keptBits_eq (n k : Nat) : keptBits n k = n / 2 ^ k := Nat.shiftRight_eq_div_pow n k

theorem roundIncrement_eq (n k : Nat) : roundIncrement n k =
    if n / 2 ^ (k - 1) % 2 = 1 ∧ (n % 2 ^ (k - 1) ≠ 0 ∨ n / 2 ^ k % 2 = 1) then 1 else 0 := by
  simp only [roundIncrement, roundBit, stickyBit, keptBits_eq, Nat.testBit_eq_decide_div_mod_eq, pow_zero,
    Nat.div_one, ← Bool.decide_or, ← Bool.decide_and, Bool.toNat, Bool.cond_decide]

theorem roundIncrement_le_one (n k : Nat) : roundIncrement n k ≤ 1 := Bool.toNat_le _

/-- Rounding misses `n` by half of the last kept place at most, and by just half only where the result is even. -/
theorem rne_error_le_half (n : Nat) {k : Nat} (hk : 1 ≤ k) :
    |2 * ((n : Int) - rne n k * 2 ^ k)| ≤ 2 ^ k ∧
      (|2 * ((n : Int) - rne n k * 2 ^ k)| = 2 ^ k → rne n k % 2 = 0) := by
  have hhalf : 2 ^ k = 2 * 2 ^ (k - 1) := by rw [← pow_succ', Nat.sub_add_cancel hk]
  have hlt : n % 2 ^ k < 2 ^ k := Nat.mod_lt _ (by positivity)
  have hn : (n : Int) = (n / 2 ^ k : ℕ) * 2 ^ k + (n % 2 ^ k : ℕ) := by
    exact_mod_cast (Nat.div_add_mod' n (2 ^ k)).symm
  have hhalf' : (2 : Int) ^ k = 2 * (2 ^ (k - 1) : ℕ) := by exact_mod_cast hhalf
  rw [rne_eq n hk]
  split_ifs with hup
  · have herr : 2 * ((n : Int) - ((n / 2 ^ k + 1 : ℕ) : Int) * 2 ^ k) = 2 * ((n % 2 ^ k : ℕ) - 2 ^ k) := by
      conv_lhs => rw [hn]
      push_cast
      ring
    rw [herr, abs_of_nonpos (by omega)]
    omega
  · have herr : 2 * ((n : Int) - ((n / 2 ^ k + 0 : ℕ) : Int) * 2 ^ k) = 2 * (n % 2 ^ k : ℕ) := by
      conv_lhs => rw [hn]
      push_cast
      ring
    rw [herr, abs_of_nonneg (by omega)]
    omega

/-- The error of `rne_error_le_half`, in units of the last kept place. -/
theorem abs_sub_rne (n k : Nat) : |(n : ℚ) / 2 ^ k - rne n k| =
    (|2 * ((n : Int) - rne n k * 2 ^ k)| : Int) / 2 ^ k / 2 := by
  have hquot : (n : ℚ) / 2 ^ k - rne n k = ((2 * ((n : Int) - rne n k * 2 ^ k) : Int) : ℚ) / 2 ^ k / 2 := by
    push_cast
    field_simp
  rw [hquot, abs_div, abs_div, Int.cast_abs, abs_two, abs_of_pos (by positivity : (0 : ℚ) < 2 ^ k)]

/-- An integer within a half of a number is nearest to it. -/
theorem abs_sub_le_of_le_half {x : ℚ} {a : Int} (h : |x - a| ≤ 1 / 2) (m : Int) : |x - a| ≤ |x - m| := by
  rcases eq_or_ne a m with rfl | hne
  · exact le_rfl
  · have hdist : (1 : ℚ) ≤ |(m : ℚ) - a| := by
      exact_mod_cast Int.one_le_abs (sub_ne_zero.mpr hne.symm)
    have htri : |(m : ℚ) - a| ≤ |x - a| + |x - m| := by
      rw [abs_sub_comm x m, add_comm]
      exact abs_sub_le _ _ _
    linarith

/-- Settles O49: the bit formula is the model's own; nearness and the even tie are `rne_error_le_half`. -/
theorem rneIsNearestWithTiesToEven : Obligations.RneIsNearestWithTiesToEven := by
  unfold Obligations.RneIsNearestWithTiesToEven
  intro n k hk
  have hpos : (0 : ℚ) < 2 ^ k := by positivity
  obtain ⟨hle, heven⟩ := rne_error_le_half n hk
  refine ⟨by rw [rne, keptBits_eq, roundIncrement_eq], fun m => ?_, fun htie => heven ?_⟩
  · have hhalf : |(n : ℚ) / 2 ^ k - ((rne n k : Int) : ℚ)| ≤ 1 / 2 := by
      rw [Int.cast_natCast, abs_sub_rne, div_le_div_iff_of_pos_right two_pos, div_le_one hpos]
      exact_mod_cast hle
    simpa using abs_sub_le_of_le_half hhalf m
  · rw [abs_sub_rne, div_left_inj' two_ne_zero, div_eq_one_iff_eq hpos.ne'] at htie
    exact_mod_cast htie

/-! ### The table of intermediate results (R55) -/

theorem subnormalShift_cast {e : Int} (hhi : e ≤ 0) : (subnormalShift e : Int) = 14 - e := by
  rw [subnormalShift]
  omega

theorem significand_bounds (F : BitVec 23) : 0x800000 ≤ significand F ∧ significand F ≤ 0xFFFFFF := by
  have := F.isLt
  rw [significand]
  omega

theorem keptBits_significand_le (F : BitVec 23) {sh : Nat} (hsh : 14 ≤ sh) :
    keptBits (significand F) sh ≤ 0x3FF := by
  rw [keptBits_eq]
  calc significand F / 2 ^ sh ≤ significand F / 2 ^ 14 :=
        Nat.div_le_div_left (Nat.pow_le_pow_right two_pos hsh) (by decide)
    _ ≤ 0x3FF := by have := significand_bounds F; omega

theorem rne_significand_le (F : BitVec 23) {sh : Nat} (hsh : 14 ≤ sh) : rne (significand F) sh ≤ 0x400 :=
  Nat.add_le_add (keptBits_significand_le F hsh) (roundIncrement_le_one _ _)

theorem keptBits_fraction_le (F : BitVec 23) : keptBits F.toNat 13 ≤ 0x3FF := by
  have := F.isLt
  rw [keptBits_eq]
  omega

theorem extractLsb_22_13_toNat (F : BitVec 23) : (F.extractLsb 22 13).toNat = keptBits F.toNat 13 := by
  have := keptBits_fraction_le F
  rw [BitVec.extractLsb_toNat, ← keptBits]
  exact Nat.mod_eq_of_lt (by omega)

theorem packedWord_eq (e : Int) (m : Nat) : packedWord e m = e.toNat * 2 ^ 10 + m := by
  rw [packedWord, Nat.shiftLeft_eq]

theorem bits15_toNat {p : Nat} (hp : p ≤ 0x7C00) : (BitVec.ofNat 15 p).toNat = p := by
  rw [BitVec.toNat_ofNat]
  exact Nat.mod_eq_of_lt (by omega)

theorem quietedFraction_toNat {F : BitVec 23} (hF : F ≠ 0#23) :
    (quietedFraction F).toNat = keptBits F.toNat 13 ||| 0x200 := by
  rw [quietedFraction, if_pos hF, BitVec.toNat_or, extractLsb_22_13_toNat]
  rfl

theorem decodedExponent_toNat {x : Int} (hlo : -112 ≤ x) (hhi : x ≤ 143) :
    ((decodedExponent x).toNat : Int) = x + 112 := by
  rw [decodedExponent, BitVec.toNat_ofNat]
  omega

/-- A nonzero fraction whose leading 1 stands at bit `b` takes `10 - b` doublings of the loop of R83. -/
theorem normalise_fraction {m : Nat} (hne : m ≠ 0) (hm : m < 2 ^ 10) : ∃ n : Nat, 1 ≤ n ∧ n ≤ 10 ∧
    normalise 10 m 1 = (m * 2 ^ n, 1 - (n : Int)) ∧ 2 ^ 10 ≤ m * 2 ^ n ∧ m * 2 ^ n < 2 ^ 11 := by
  have hlog : Nat.log 2 m < 10 := Nat.log_lt_of_lt_pow hne hm
  obtain ⟨n, hn⟩ : ∃ n, Nat.log 2 m + n = 10 := ⟨_, Nat.add_sub_cancel' hlog.le⟩
  have hlo : 2 ^ 10 ≤ m * 2 ^ n := by
    rw [← hn, pow_add]
    exact Nat.mul_le_mul_right _ (Nat.pow_log_le_self 2 hne)
  have hhi : m * 2 ^ n < 2 ^ 11 := by
    rw [show 11 = (Nat.log 2 m + 1) + n by omega, pow_add]
    exact Nat.mul_lt_mul_of_pos_right (Nat.lt_pow_succ_log_self one_lt_two _) (by positivity)
  exact ⟨n, by omega, by omega, normalise_eq 1 (by omega) hlo hhi, hlo, hhi⟩

/-- Settles O50, one goal per row of the table (the significand's is `significand_bounds`); each is a bound on a helper
above, and a number within its field's width stands there unchanged. -/
theorem intermediateResultsFitTheirFields : Obligations.IntermediateResultsFitTheirFields := by
  unfold Obligations.IntermediateResultsFitTheirFields
  refine ⟨fun E hE => ?_, fun e hlo hhi => ?_, fun F => ⟨rfl, significand_bounds F⟩, fun F sh hlo hhi => ?_,
    fun F e hlo hhi => ?_, fun F => ?_, fun F e hlo hhi => ?_, fun F hF => ?_, fun E hzero hones => ?_,
    fun F hF => ?_, fun F => ?_⟩
  · -- `int(E32) − 112`
    have := E.isLt
    have : E.toNat ≠ 0xFF := BitVec.toNat_ne_iff_ne.mpr hE
    have := rebias_eq E
    omega
  · -- `14 − e`
    have := subnormalShift_cast hhi
    omega
  · -- `sig >> sh`
    have := significand_bounds F
    refine ⟨keptBits_eq _ _, keptBits_significand_le F hlo, ?_, ?_⟩
    · rintro rfl
      rw [keptBits_eq]
      omega
    · rintro rfl
      rw [keptBits_eq]
      omega
  · -- `q + inc` of the subnormal case
    have hsh : 14 ≤ subnormalShift e := by have := subnormalShift_cast hhi; omega
    have hrne := rne_significand_le F hsh
    exact ⟨roundIncrement_le_one _ _, hrne, bits15_toNat (by omega)⟩
  · -- `F32 >> 13`
    exact ⟨keptBits_eq _ _, keptBits_fraction_le F, extractLsb_22_13_toNat F⟩
  · -- `(e << 10) + q + inc`
    have hkept := keptBits_fraction_le F
    have hinc := roundIncrement_le_one F.toNat 13
    have hpacked : packedWord e (rne F.toNat 13) =
        e.toNat * 2 ^ 10 + (keptBits F.toNat 13 + roundIncrement F.toNat 13) := packedWord_eq _ _
    have hhigh : packedWord e (rne F.toNat 13) ≤ 0x7C00 := by omega
    rw [bits15_toNat hhigh]
    omega
  · -- `(F32 >> 13) | 0x200`
    rw [quietedFraction_toNat hF]
    have hkept : keptBits F.toNat 13 < 2 ^ 10 := Nat.lt_succ_of_le (keptBits_fraction_le F)
    exact ⟨rfl, Nat.right_le_or, Nat.le_of_lt_succ (Nat.or_lt_two_pow hkept (by decide))⟩
  · -- `int(E16) + 112`
    have := E.isLt
    have : E.toNat ≠ 0 := BitVec.toNat_ne_iff_ne.mpr hzero
    have : E.toNat ≠ 0x1F := BitVec.toNat_ne_iff_ne.mpr hones
    have := decodedExponent_toNat (x := E.toNat) (by omega) (by omega)
    omega
  · -- the loop of R83
    obtain ⟨n, hn1, hn10, hloop, hlo, hhi⟩ :=
      normalise_fraction (BitVec.toNat_ne_iff_ne.mpr hF) F.isLt
    have := decodedExponent_toNat (x := 1 - (n : Int)) (by omega) (by omega)
    exact ⟨n, hn1, hn10, hloop, hlo, by omega, by omega, by omega, by omega, by omega, this⟩
  · -- `F16 :: 0^13`
    have := F.isLt
    rw [widenFraction_toNat]
    omega

end Sys2Proof.Machine
end

section
/-! PROOFS. Classes and values (spec/40_helpers.md R52, R53; spec/30_encoding.md R32, R33): both are read off the same
tests of a word's fields and off the word's magnitude, so one argument serves both formats. -/

namespace Sys2Proof.Machine

/-! ### What a class says, in a format of any size -/

/-- The value that a word's fields give it (R32, R33), from what R52 tests of them; `a` is the magnitude its number has
where the exponent is not all ones. -/
def valueOf (allOnes fracZero top negative : Bool) (a : ℚ) : FpValue :=
  if allOnes then if fracZero then .infinity negative else .nan top
  else .number ((-1) ^ negative.toNat * a)

/-- What a class says of the value `v` and the sign of a word, in a format with smallest normal `tiny` whose numbers are
`below` `huge`. -/
def FpClass.Describes (tiny huge : ℚ) (below : ℚ → ℚ → Prop) (v : FpValue) (negative : Bool) : FpClass → Prop
  | .positiveZero => v = .number 0 ∧ negative = false
  | .negativeZero => v = .number 0 ∧ negative = true
  | .positiveSubnormal => ∃ q, v = .number q ∧ 0 < q ∧ q < tiny
  | .negativeSubnormal => ∃ q, v = .number q ∧ q < 0 ∧ -tiny < q
  | .positiveNormal => ∃ q, v = .number q ∧ tiny ≤ q ∧ below q huge
  | .negativeNormal => ∃ q, v = .number q ∧ q ≤ -tiny ∧ below (-huge) q
  | .positiveInfinity => v = .infinity false
  | .negativeInfinity => v = .infinity true
  | .quietNaN => v = .nan true
  | .signalingNaN => v = .nan false

/-- The class describes the value, where a word of magnitude `u / 2 ^ k` and fraction `f` of `p` bits is a multiple of
its format's smallest value: the `f`-th with exponent 0, from the `2 ^ p`-th on with a greater one. -/
theorem classOf_describes {huge : ℚ} {below : ℚ → ℚ → Prop} {allOnes expZero fracZero : Bool} {p k u f : Nat}
    (top negative : Bool) (hbelow : ∀ x y, below x y → below (-y) (-x)) (hf : f < 2 ^ p)
    (hfrac : fracZero = true ↔ f = 0) (hsub : expZero = true → u = f)
    (hnormal : allOnes = false → expZero = false → 2 ^ p ≤ u ∧ below (u / 2 ^ k) huge) :
    (classOf allOnes expZero fracZero top negative).Describes ((2 ^ p : ℕ) / 2 ^ k) huge below
      (valueOf allOnes fracZero top negative (u / 2 ^ k)) negative := by
  cases allOnes with
  | true =>
    cases fracZero with
    | true => cases negative <;> rfl
    | false => cases top <;> rfl
  | false =>
    cases expZero with
    | true =>
      obtain rfl := hsub rfl
      cases fracZero with
      | true =>
        obtain rfl := hfrac.mp rfl
        cases negative <;> simp [classOf, valueOf, FpClass.Describes]
      | false =>
        have hu : 0 < u := Nat.pos_of_ne_zero fun h => Bool.false_ne_true (hfrac.mpr h)
        have hpos : (0 : ℚ) < u / 2 ^ k := by positivity
        have hlt : (u : ℚ) / 2 ^ k < (2 ^ p : ℕ) / 2 ^ k := by gcongr
        cases negative with
        | false => exact ⟨_, rfl, by simpa using hpos, by simpa using hlt⟩
        | true => exact ⟨_, rfl, by simpa using hpos, by simpa using hlt⟩
    | false =>
      obtain ⟨hu, hbig⟩ := hnormal rfl rfl
      have hge : ((2 ^ p : ℕ) : ℚ) / 2 ^ k ≤ u / 2 ^ k := by gcongr
      cases negative with
      | false => exact ⟨_, rfl, by simpa using hge, by simpa using hbig⟩
      | true => exact ⟨_, rfl, by simpa using hge, by simpa using hbelow _ _ hbig⟩

/-! ### The sign, and the tests of a word's fields -/

theorem decompose16_s_eq (h : Word16) : (decompose16 h).s = BitVec.ofBool (h.getLsbD 15) := by
  have := h.isLt
  apply BitVec.eq_of_toNat_eq
  rw [decompose16_s_toNat, BitVec.toNat_ofBool, BitVec.getLsbD, Nat.toNat_testBit]
  omega

theorem decompose32_s_eq (w : Word32) : (decompose32 w).s = BitVec.ofBool (w.getLsbD 31) := by
  have := w.isLt
  apply BitVec.eq_of_toNat_eq
  rw [decompose32_s_toNat, BitVec.toNat_ofBool, BitVec.getLsbD, Nat.toNat_testBit]
  omega

theorem decide_ofBool_eq_one (b : Bool) : decide (BitVec.ofBool b = 1#1) = b := by
  cases b <;> rfl

theorem decompose16_F_top (h : Word16) : (decompose16 h).F.getLsbD 9 = quietBit16 h := by
  rw [BitVec.getLsbD, decompose16_F_toNat, Nat.testBit_mod_two_pow]
  rfl

theorem decompose32_F_top (w : Word32) : (decompose32 w).F.getLsbD 22 = quietBit32 w := by
  rw [BitVec.getLsbD, decompose32_F_toNat, Nat.testBit_mod_two_pow]
  rfl

theorem classify16_eq (h : Word16) : classify16 h = classOf ((decompose16 h).E = 0x1F#5) ((decompose16 h).E = 0#5)
    ((decompose16 h).F = 0#10) (quietBit16 h) (h.getLsbD 15) := by
  simp only [classify16, decompose16_s_eq, decide_ofBool_eq_one]

theorem classify32_eq (w : Word32) : classify32 w = classOf ((decompose32 w).E = 0xFF#8) ((decompose32 w).E = 0#8)
    ((decompose32 w).F = 0#23) (quietBit32 w) (w.getLsbD 31) := by
  simp only [classify32, decompose32_s_eq, decide_ofBool_eq_one]

theorem value16_eq (h : Word16) : value16 h = valueOf ((decompose16 h).E = 0x1F#5) ((decompose16 h).F = 0#10)
    (quietBit16 h) (h.getLsbD 15) (units16 h / 2 ^ 24) := by
  simp only [value16, valueOf, number16_eq, decompose16_s_eq, decide_ofBool_eq_one, decompose16_F_top,
    BitVec.toNat_ofBool, decide_eq_true_eq]

theorem value32_eq (w : Word32) : value32 w = valueOf ((decompose32 w).E = 0xFF#8) ((decompose32 w).F = 0#23)
    (quietBit32 w) (w.getLsbD 31) (units32 w / 2 ^ 149) := by
  simp only [value32, valueOf, number32_eq, decompose32_s_eq, decide_ofBool_eq_one, decompose32_F_top,
    BitVec.toNat_ofBool, decide_eq_true_eq]

/-! ### Magnitudes -/

/-- A significand of `p + 1` bits with its leading 1, doubled at most `n` times. -/
theorem normal_units_bounds {p F E n : Nat} (hF : F < 2 ^ p) (hn : E - 1 ≤ n) :
    2 ^ p ≤ (2 ^ p + F) * 2 ^ (E - 1) ∧ (2 ^ p + F) * 2 ^ (E - 1) ≤ (2 ^ (p + 1) - 1) * 2 ^ n := by
  constructor
  · exact (Nat.le_add_right _ _).trans (Nat.le_mul_of_pos_right _ (by positivity))
  · exact Nat.mul_le_mul (by omega) (Nat.pow_le_pow_right two_pos hn)

theorem units16_of_exponent_zero {h : Word16} (hE : (decompose16 h).E = 0#5) : units16 h = (decompose16 h).F.toNat :=
  if_pos hE

theorem units32_of_exponent_zero {w : Word32} (hE : (decompose32 w).E = 0#8) : units32 w = (decompose32 w).F.toNat :=
  if_pos hE

theorem units16_bounds_of_normal {h : Word16} (hE : (decompose16 h).E ≠ 0#5) (hones : (decompose16 h).E ≠ 0x1F#5) :
    2 ^ 10 ≤ units16 h ∧ units16 h ≤ (2 ^ 11 - 1) * 2 ^ 29 := by
  have := (decompose16 h).E.isLt
  have : (decompose16 h).E.toNat ≠ 0x1F := BitVec.toNat_ne_iff_ne.mpr hones
  rw [units16, if_neg hE]
  exact normal_units_bounds (decompose16 h).F.isLt (by omega)

theorem units32_bounds_of_normal {w : Word32} (hE : (decompose32 w).E ≠ 0#8) (hones : (decompose32 w).E ≠ 0xFF#8) :
    2 ^ 23 ≤ units32 w ∧ units32 w ≤ (2 ^ 24 - 1) * 2 ^ 253 := by
  have := (decompose32 w).E.isLt
  have : (decompose32 w).E.toNat ≠ 0xFF := BitVec.toNat_ne_iff_ne.mpr hones
  rw [units32, if_neg hE]
  exact normal_units_bounds (decompose32 w).F.isLt (by omega)

/-! ### The two formats -/

theorem classify16_describes (h : Word16) :
    (classify16 h).Describes (2 ^ (-14 : ℤ)) 65504 (· ≤ ·) (value16 h) (h.getLsbD 15) := by
  have htiny : (2 : ℚ) ^ (-14 : ℤ) = (2 ^ 10 : ℕ) / 2 ^ 24 := by norm_num
  have hhuge : (65504 : ℚ) = ((2 ^ 11 - 1) * 2 ^ 29 : ℕ) / 2 ^ 24 := by norm_num
  rw [classify16_eq, value16_eq, htiny, hhuge]
  refine classOf_describes _ _ (fun _ _ => neg_le_neg) (decompose16 h).F.isLt (by simp [BitVec.toNat_eq])
    (fun hE => units16_of_exponent_zero (of_decide_eq_true hE)) fun hones hE => ?_
  obtain ⟨hge, hle⟩ := units16_bounds_of_normal (of_decide_eq_false hE) (of_decide_eq_false hones)
  exact ⟨hge, by gcongr⟩

theorem classify32_describes (w : Word32) :
    (classify32 w).Describes (2 ^ (-126 : ℤ)) (2 ^ (128 : ℤ)) (· < ·) (value32 w) (w.getLsbD 31) := by
  have htiny : (2 : ℚ) ^ (-126 : ℤ) = (2 ^ 23 : ℕ) / 2 ^ 149 := by norm_num
  have hhuge : (2 : ℚ) ^ (128 : ℤ) = (2 ^ 24 * 2 ^ 253 : ℕ) / 2 ^ 149 := by norm_num
  rw [classify32_eq, value32_eq, htiny, hhuge]
  refine classOf_describes _ _ (fun _ _ => neg_lt_neg) (decompose32 w).F.isLt (by simp [BitVec.toNat_eq])
    (fun hE => units32_of_exponent_zero (of_decide_eq_true hE)) fun hones hE => ?_
  obtain ⟨hge, hle⟩ := units32_bounds_of_normal (of_decide_eq_false hE) (of_decide_eq_false hones)
  have hlt : units32 w < 2 ^ 24 * 2 ^ 253 := hle.trans_lt (Nat.mul_lt_mul_of_pos_right (by decide) (by positivity))
  exact ⟨hge, by gcongr⟩

/-- Settles O51: `FpClass.Describes` is the statement's table, in binary16 up to 65504 and in binary32 below `2 ^ 128`. -/
theorem classesSayWhatAWordDenotes : Obligations.ClassesSayWhatAWordDenotes := by
  unfold Obligations.ClassesSayWhatAWordDenotes
  exact ⟨classify16_describes, classify32_describes⟩

end Sys2Proof.Machine
end

section
/-! PROOFS. ENCODE (spec/41_encode.md): the word of each case, that the sign is beside it and never in it, and the
magnitudes at which the cases of finite words meet. -/

namespace Sys2Proof.Machine

/-! ### The sign and the low 15 bits (R60, R66) -/

/-- The low 15 bits of `ENCODE(w)`, from the two fields of `w` below the sign. -/
def encodedMagnitude (E : BitVec 8) (F : BitVec 23) : BitVec 15 :=
  match encodeCase E with
  | .infinityOrNaN => 0x1F#5 ++ quietedFraction F
  | .overflow => 0x1F#5 ++ 0#10
  | .tooSmall => 0#15
  | .subnormal => BitVec.ofNat 15 (rne (significand F) (subnormalShift (rebias E)))
  | .normal => BitVec.ofNat 15 (packedWord (rebias E) (rne F.toNat 13))

theorem sign_append_fields (s : BitVec 1) (E : BitVec 5) (F : BitVec 10) : s ++ E ++ F = s ++ (E ++ F) :=
  BitVec.append_assoc

theorem fp16Encode_eq (w : Word32) :
    fp16Encode w = (decompose32 w).s ++ encodedMagnitude (decompose32 w).E (decompose32 w).F := by
  simp only [fp16Encode, encodedMagnitude]
  cases encodeCase (decompose32 w).E with
  | infinityOrNaN => exact sign_append_fields ..
  | overflow => exact sign_append_fields ..
  | tooSmall => rfl
  | subnormal => rfl
  | normal => rfl

theorem fp16Encode_sign (w : Word32) : (fp16Encode w).getLsbD 15 = w.getLsbD 31 := by
  rw [fp16Encode_eq, BitVec.getLsbD_append, decompose32_s_eq]
  exact BitVec.getLsbD_ofBool ..

theorem fp16Encode_low (w : Word32) :
    (fp16Encode w).extractLsb 14 0 = encodedMagnitude (decompose32 w).E (decompose32 w).F := by
  rw [fp16Encode_eq]
  exact BitVec.extractLsb'_append_eq_right

/-- The fields below the sign are cut from the low 31 bits. -/
theorem decompose32_of_low_eq {w v : Word32} (h : w.extractLsb 30 0 = v.extractLsb 30 0) :
    (decompose32 w).E = (decompose32 v).E ∧ (decompose32 w).F = (decompose32 v).F := by
  have hlow : w.toNat % 2 ^ 31 = v.toNat % 2 ^ 31 := by simpa using congrArg BitVec.toNat h
  constructor
  · apply BitVec.eq_of_toNat_eq
    rw [decompose32_E_toNat, decompose32_E_toNat]
    omega
  · apply BitVec.eq_of_toNat_eq
    rw [decompose32_F_toNat, decompose32_F_toNat]
    omega

theorem decompose32_xor_sign (w : Word32) : decompose32 (w ^^^ 0x80000000#32) =
    { decompose32 w with s := (decompose32 w).s ^^^ 1#1 } := by
  simp only [decompose32, BitVec.extractLsb_xor]
  congr 1
  · exact BitVec.xor_zero
  · exact BitVec.xor_zero

/-- Settles O28: the word is the sign above `encodedMagnitude`, which no sign enters. -/
theorem encodeSignPassesThrough : Obligations.EncodeSignPassesThrough := by
  unfold Obligations.EncodeSignPassesThrough
  refine ⟨fp16Encode_sign, fun w v h => ?_, fun w => ?_⟩
  · obtain ⟨hE, hF⟩ := decompose32_of_low_eq h
    rw [fp16Encode_low, fp16Encode_low, hE, hF]
  · rw [fp16Encode_eq, fp16Encode_eq, decompose32_xor_sign, show 0x8000#16 = 1#1 ++ 0#15 from rfl,
      BitVec.xor_append, BitVec.xor_zero]

/-! ### The word of each case (R61 to R65) -/

theorem ne_ones_of_rebias_lt {E : BitVec 8} (h : rebias E < 143) : E ≠ 0xFF#8 := by
  rintro rfl
  exact absurd h (by decide)

theorem fp16Encode_of_infinityOrNaN {w : Word32} (hE : (decompose32 w).E = 0xFF#8) :
    fp16Encode w = (decompose32 w).s ++ 0x1F#5 ++ quietedFraction (decompose32 w).F := by
  have hcase : encodeCase (decompose32 w).E = .infinityOrNaN := if_pos hE
  simp only [fp16Encode, hcase]
  rfl

theorem fp16Encode_of_overflow {w : Word32} (hE : (decompose32 w).E ≠ 0xFF#8)
    (he : 31 ≤ rebias (decompose32 w).E) : fp16Encode w = (decompose32 w).s ++ 0x1F#5 ++ 0#10 := by
  have hcase : encodeCase (decompose32 w).E = .overflow := by rw [encodeCase, if_neg hE, if_pos he]
  simp only [fp16Encode, hcase]
  rfl

theorem fp16Encode_of_tooSmall {w : Word32} (he : rebias (decompose32 w).E < -10) :
    fp16Encode w = (decompose32 w).s ++ 0#15 := by
  have hcase : encodeCase (decompose32 w).E = .tooSmall := by
    rw [encodeCase, if_neg (ne_ones_of_rebias_lt (by omega)), if_neg (by omega), if_pos he]
  simp only [fp16Encode, hcase]
  rfl

section
variable {w : Word32} {e : Int} (he : e = rebias (decompose32 w).E)
include he

theorem fp16Encode_of_subnormal (hlo : -10 ≤ e) (hhi : e ≤ 0) : fp16Encode w =
    (decompose32 w).s ++ BitVec.ofNat 15 (rne (significand (decompose32 w).F) (subnormalShift e)) := by
  subst he
  have hcase : encodeCase (decompose32 w).E = .subnormal := by
    rw [encodeCase, if_neg (ne_ones_of_rebias_lt (by omega)), if_neg (by omega), if_neg (by omega), if_pos hhi]
  simp only [fp16Encode, hcase]
  rfl

theorem fp16Encode_of_normal (hlo : 1 ≤ e) (hhi : e ≤ 30) : fp16Encode w =
    (decompose32 w).s ++ BitVec.ofNat 15 (e.toNat * 2 ^ 10 + rne (decompose32 w).F.toNat 13) := by
  subst he
  have hcase : encodeCase (decompose32 w).E = .normal := by
    rw [encodeCase, if_neg (ne_ones_of_rebias_lt (by omega)), if_neg (by omega), if_neg (by omega),
      if_neg (by omega)]
  simp only [fp16Encode, hcase, ← packedWord_eq]
  rfl

end

/-! ### Magnitudes by exponent field -/

theorem abs_number32_of_exponent_zero {w : Word32} (hE : (decompose32 w).E = 0#8) :
    |number32 w| = (decompose32 w).F.toNat * 2 ^ (-149 : ℤ) := by
  rw [number32, abs_mul, abs_neg_one_pow, one_mul, if_pos hE, abs_of_nonneg (by positivity)]

theorem abs_number32_of_exponent_ne_zero {w : Word32} (hE : (decompose32 w).E ≠ 0#8) :
    |number32 w| = (2 ^ 23 + (decompose32 w).F.toNat : ℕ) * 2 ^ ((decompose32 w).E.toNat - 150 : ℤ) := by
  rw [number32, abs_mul, abs_neg_one_pow, one_mul, if_neg hE, abs_of_nonneg (by positivity)]

theorem two_pow_mul_zpow {m : Nat} {a b : ℤ} (h : m + a = b) : ((2 ^ m : ℕ) : ℚ) * 2 ^ a = 2 ^ b := by
  rw [← h, zpow_add₀ two_ne_zero, zpow_natCast, Nat.cast_pow, Nat.cast_ofNat]

theorem abs_number32_lt_of_exponent_le {w : Word32} {n : Nat} (h : (decompose32 w).E.toNat ≤ n) :
    |number32 w| < 2 ^ (n - 126 : ℤ) := by
  have hF := (decompose32 w).F.isLt
  by_cases hE : (decompose32 w).E = 0#8
  · calc |number32 w| = (decompose32 w).F.toNat * 2 ^ (-149 : ℤ) := abs_number32_of_exponent_zero hE
      _ < (2 ^ 23 : ℕ) * 2 ^ (-149 : ℤ) := by gcongr
      _ = 2 ^ (-126 : ℤ) := two_pow_mul_zpow (by decide)
      _ ≤ 2 ^ (n - 126 : ℤ) := zpow_le_zpow_right₀ one_le_two (by omega)
  · calc |number32 w| = (2 ^ 23 + (decompose32 w).F.toNat : ℕ) * 2 ^ ((decompose32 w).E.toNat - 150 : ℤ) :=
          abs_number32_of_exponent_ne_zero hE
      _ < (2 ^ 24 : ℕ) * 2 ^ ((decompose32 w).E.toNat - 150 : ℤ) := by gcongr; omega
      _ = 2 ^ ((decompose32 w).E.toNat - 126 : ℤ) := two_pow_mul_zpow (by omega)
      _ ≤ 2 ^ (n - 126 : ℤ) := zpow_le_zpow_right₀ one_le_two (by omega)

theorem le_abs_number32_of_le_exponent {w : Word32} {n : Nat} (hn : 1 ≤ n) (h : n ≤ (decompose32 w).E.toNat) :
    2 ^ (n - 127 : ℤ) ≤ |number32 w| := by
  have hE : (decompose32 w).E ≠ 0#8 := BitVec.toNat_ne_iff_ne.mp (show (decompose32 w).E.toNat ≠ 0 by omega)
  calc (2 : ℚ) ^ (n - 127 : ℤ) ≤ 2 ^ ((decompose32 w).E.toNat - 127 : ℤ) :=
        zpow_le_zpow_right₀ one_le_two (by omega)
    _ = (2 ^ 23 : ℕ) * 2 ^ ((decompose32 w).E.toNat - 150 : ℤ) :=
        (two_pow_mul_zpow (by omega)).symm
    _ ≤ (2 ^ 23 + (decompose32 w).F.toNat : ℕ) * 2 ^ ((decompose32 w).E.toNat - 150 : ℤ) := by
        gcongr
        omega
    _ = |number32 w| := (abs_number32_of_exponent_ne_zero hE).symm

/-- Up to rebiased exponent 30, magnitude 65520 is reached at exponent field 142 by the fractions whose ten top bits
and round bit are all 1. -/
theorem le_abs_number32_65520_iff {w : Word32} (h : (decompose32 w).E.toNat ≤ 142) :
    65520 ≤ |number32 w| ↔ (decompose32 w).E.toNat = 142 ∧ 0x7FF000 ≤ (decompose32 w).F.toNat := by
  by_cases htop : (decompose32 w).E.toNat = 142
  · have hE : (decompose32 w).E ≠ 0#8 := BitVec.toNat_ne_iff_ne.mp (show (decompose32 w).E.toNat ≠ 0 by omega)
    have hvalue : |number32 w| = (2 ^ 23 + (decompose32 w).F.toNat : ℕ) / 2 ^ 8 := by
      rw [abs_number32_of_exponent_ne_zero hE, htop, div_eq_mul_inv]
      norm_num
    have hthreshold : (65520 : ℚ) = (2 ^ 23 + 0x7FF000 : ℕ) / 2 ^ 8 := by norm_num
    rw [hvalue, hthreshold, div_le_div_iff_of_pos_right (by positivity), Nat.cast_le]
    omega
  · have hsmall : |number32 w| < 65520 :=
      (abs_number32_lt_of_exponent_le (n := 141) (by omega)).trans_le (by norm_num)
    exact iff_of_false hsmall.not_ge fun hboth => htop hboth.1

/-! ### Infinities, NaNs, and the two ends of the finite range (R61 to R63) -/

/-- Settles O23: the case's word, its fields cut from the input by their bit positions. -/
theorem encodeOfInfinityOrNaN : Obligations.EncodeOfInfinityOrNaN := by
  unfold Obligations.EncodeOfInfinityOrNaN
  intro w s hE
  have hfraction : (decompose32 w).F.extractLsb 22 13 = w.extractLsb 22 13 :=
    BitVec.extractLsb'_extractLsb'_of_le (by decide)
  rw [delivers_encode_iff, fp16Encode_of_infinityOrNaN hE, quietedFraction, hfraction]
  rfl

/-- Settles O24: exponent field 143 begins at `2 ^ 16`. -/
theorem encodeOfOverflow : Obligations.EncodeOfOverflow := by
  unfold Obligations.EncodeOfOverflow
  intro w s hE he
  refine ⟨delivers_encode_iff.mpr (fp16Encode_of_overflow hE he).symm, ?_⟩
  have he' : 31 ≤ rebias (decompose32 w).E := he
  rw [rebias_eq] at he'
  exact_mod_cast le_abs_number32_of_le_exponent (n := 143) (by decide) (by omega)

/-- Settles O25: exponent field 101 ends below `2 ^ -25`. -/
theorem encodeOfTooSmall : Obligations.EncodeOfTooSmall := by
  unfold Obligations.EncodeOfTooSmall
  refine ⟨fun w s he => ⟨delivers_encode_iff.mpr (fp16Encode_of_tooSmall he).symm, ?_⟩, fun w hE => ?_⟩
  · have he' : rebias (decompose32 w).E < -10 := he
    rw [rebias_eq] at he'
    exact abs_number32_lt_of_exponent_le (n := 101) (by omega)
  · rw [hE]
    decide

/-! ### The rounded ranges (R64, R65) -/

theorem rne_eq_div_add_inc (n k : Nat) : rne n k = n / 2 ^ k +
    if n / 2 ^ (k - 1) % 2 = 1 ∧ (n % 2 ^ (k - 1) ≠ 0 ∨ n / 2 ^ k % 2 = 1) then 1 else 0 := by
  rw [rne, keptBits_eq, roundIncrement_eq]

/-- Settles O26: the sum the statement writes out is `rne` of the significand. -/
theorem encodeOfSubnormalRange : Obligations.EncodeOfSubnormalRange := by
  unfold Obligations.EncodeOfSubnormalRange
  intro w s e he hlo hhi sig sh q inc
  have hsh : 14 ≤ sh ∧ sh ≤ 24 := by omega
  have hrne : rne (significand (decompose32 w).F) (subnormalShift e) = q + inc := rne_eq_div_add_inc sig sh
  have hmax : q + inc ≤ 0x400 := hrne ▸ rne_significand_le _ hsh.1
  refine ⟨hsh.1, hsh.2, hmax, delivers_encode_iff.mpr ?_, fun hcarry => by rw [hcarry]; rfl⟩
  rw [fp16Encode_of_subnormal he hlo hhi, hrne]
  rfl

theorem getLsbD_iff_fraction_bit (w : Word32) {i : Nat} (hi : i < 23) :
    w.getLsbD i = true ↔ (decompose32 w).F.toNat / 2 ^ i % 2 = 1 := by
  rw [← decide_eq_true_eq (p := _ = 1), ← Nat.testBit_eq_decide_div_mod_eq, decompose32_F_toNat,
    Nat.testBit_mod_two_pow, decide_eq_true hi, Bool.true_and]
  rfl

/-- The rounding of the normal case, by the bits of the input word. -/
theorem rne_fraction_eq (w : Word32) : rne (decompose32 w).F.toNat 13 = (w.extractLsb 22 13).toNat +
    if w.getLsbD 12 = true ∧ (w.extractLsb 11 0 ≠ 0#12 ∨ w.getLsbD 13 = true) then 1 else 0 := by
  have hround : w.getLsbD 12 = true ↔ (decompose32 w).F.toNat / 2 ^ (13 - 1) % 2 = 1 :=
    getLsbD_iff_fraction_bit w (by decide)
  have hodd : w.getLsbD 13 = true ↔ (decompose32 w).F.toNat / 2 ^ 13 % 2 = 1 :=
    getLsbD_iff_fraction_bit w (by decide)
  have hsticky : w.extractLsb 11 0 ≠ 0#12 ↔ (decompose32 w).F.toNat % 2 ^ (13 - 1) ≠ 0 := by
    rw [decompose32_F_toNat, ← BitVec.toNat_ne_iff_ne, BitVec.extractLsb_toNat, Nat.shiftRight_zero,
      BitVec.toNat_zero]
    omega
  have hkept : (w.extractLsb 22 13).toNat = (decompose32 w).F.toNat / 2 ^ 13 := by
    rw [decompose32_F_toNat, BitVec.extractLsb_toNat, Nat.shiftRight_eq_div_pow]
    omega
  rw [rne_eq_div_add_inc, hkept]
  simp only [hround, hodd, hsticky]

theorem rne_fraction_le (F : BitVec 23) : rne F.toNat 13 ≤ 0x400 :=
  Nat.add_le_add (keptBits_fraction_le F) (roundIncrement_le_one _ _)

theorem rne_fraction_carry_iff (F : BitVec 23) : rne F.toNat 13 = 0x400 ↔ 0x7FF000 ≤ F.toNat := by
  have := F.isLt
  rw [rne_eq _ (by decide)]
  split_ifs <;> omega

/-- Settles O27: the packed sum reaches the infinity pattern by a carry at `e = 30` only, which the fractions from
`0x7FF000` on make, and these are the magnitudes from 65520 on. -/
theorem encodeOfNormalRange : Obligations.EncodeOfNormalRange := by
  unfold Obligations.EncodeOfNormalRange
  intro w s e he hlo hhi q inc p
  have he' : e = rebias (decompose32 w).E := he
  rw [rebias_eq] at he'
  have hrne : rne (decompose32 w).F.toNat 13 = q + inc := rne_fraction_eq w
  have hp : p = e.toNat * 2 ^ 10 + rne (decompose32 w).F.toNat 13 := by rw [hrne, ← Nat.add_assoc]
  have hmax := rne_fraction_le (decompose32 w).F
  have hq : q < 2 ^ 10 := (w.extractLsb 22 13).isLt
  have hinc : inc ≤ 1 := by
    simp only [inc]
    split_ifs <;> decide
  have hinfinity : p = 0x7C00 ↔ e = 30 ∧ rne (decompose32 w).F.toNat 13 = 0x400 := by omega
  refine ⟨by omega, by omega, delivers_encode_iff.mpr ?_, by omega, ?_⟩
  · rw [fp16Encode_of_normal he hlo hhi, hp]
    rfl
  · rw [hinfinity, rne_fraction_carry_iff, le_abs_number32_65520_iff (by omega)]
    omega

/-! ### The rounding carry (R67) -/

/-- A packed word whose fraction has carried out holds the next exponent and a zero fraction. -/
theorem sign_append_carried (s : BitVec 1) (E : Nat) :
    s ++ BitVec.ofNat 15 (E * 2 ^ 10 + 0x400) = s ++ BitVec.ofNat 5 (E + 1) ++ 0#10 := by
  have hpacked : BitVec.ofNat 15 (E * 2 ^ 10 + 0x400) = BitVec.ofNat 5 (E + 1) ++ 0#10 := by
    apply BitVec.eq_of_toNat_eq
    simp only [BitVec.toNat_append, BitVec.toNat_ofNat, Nat.zero_mod, Nat.or_zero, Nat.shiftLeft_eq]
    omega
  rw [hpacked, sign_append_fields]

/-- Settles O29: whatever the exponent below the carry, the packed word is the one of `sign_append_carried`. -/
theorem roundingCarryIsNeverClamped : Obligations.RoundingCarryIsNeverClamped := by
  unfold Obligations.RoundingCarryIsNeverClamped
  intro w e he
  have hnormal (hlo : 1 ≤ e) (hhi : e ≤ 30) (hcarry : rne (decompose32 w).F.toNat 13 = 0x400) :
      fp16Encode w = (decompose32 w).s ++ BitVec.ofNat 5 (e.toNat + 1) ++ 0#10 := by
    rw [fp16Encode_of_normal he hlo hhi, hcarry, sign_append_carried]
  refine ⟨fun hlo hhi hcarry => ?_, fun hlo hhi => hnormal hlo (by omega), ?_⟩
  · have hcarry' : rne (significand (decompose32 w).F) (subnormalShift e) = 0x400 := hcarry
    rw [fp16Encode_of_subnormal he hlo hhi, hcarry']
    exact sign_append_carried _ 0
  · rintro rfl
    exact hnormal (by decide) (by decide)

end Sys2Proof.Machine
end

section
/-! PROOFS. DECODE (spec/42_decode.md): the exponent and fraction of each case, that the sign is beside them and never
in them, and that the word denotes what its operand denotes. -/

namespace Sys2Proof.Machine

/-! ### The sign and the two fields below it (R80, R85) -/

/-- The exponent and fraction of `DECODE(h)`, from the two fields of `h` below the sign. -/
def decodedFields (E : BitVec 5) (F : BitVec 10) : BitVec 8 × BitVec 23 :=
  match decodeCase E F with
  | .infinityOrNaN => (0xFF#8, widenFraction F)
  | .zero => (0#8, 0#23)
  | .subnormal =>
    let (m, x) := normalise 10 F.toNat 1
    (decodedExponent x, widenFraction (BitVec.ofNat 10 (m &&& 0x3FF)))
  | .normal => (decodedExponent E.toNat, widenFraction F)

theorem decodeZero_eq (s : BitVec 1) : decodeZero s = s ++ 0#8 ++ 0#23 :=
  (BitVec.append_assoc (x₁ := s) (x₂ := 0#8) (x₃ := 0#23)).symm

theorem fp16Decode_eq (h : Word16) : fp16Decode h = compose32
    { s := (decompose16 h).s
      E := (decodedFields (decompose16 h).E (decompose16 h).F).1
      F := (decodedFields (decompose16 h).E (decompose16 h).F).2 } := by
  simp only [fp16Decode, decodedFields]
  cases decodeCase (decompose16 h).E (decompose16 h).F with
  | infinityOrNaN => rfl
  | zero => exact decodeZero_eq _
  | subnormal => rfl
  | normal => rfl

theorem decompose32_fp16Decode (h : Word16) : decompose32 (fp16Decode h) =
    { s := (decompose16 h).s
      E := (decodedFields (decompose16 h).E (decompose16 h).F).1
      F := (decodedFields (decompose16 h).E (decompose16 h).F).2 } := by
  rw [fp16Decode_eq, decompose32_compose32]

theorem fp16Decode_sign (h : Word16) : (fp16Decode h).getLsbD 31 = h.getLsbD 15 := by
  have hs : (decompose32 (fp16Decode h)).s = (decompose16 h).s := by rw [decompose32_fp16Decode]
  rw [decompose32_s_eq, decompose16_s_eq] at hs
  exact BitVec.ofBool_eq_iff_eq.mp hs

theorem fp16Decode_low (h : Word16) : (fp16Decode h).extractLsb 30 0 =
    (decodedFields (decompose16 h).E (decompose16 h).F).1 ++
      (decodedFields (decompose16 h).E (decompose16 h).F).2 := by
  rw [fp16Decode_eq, compose32, BitVec.append_assoc]
  exact BitVec.extractLsb'_append_eq_right

/-- The fields below the sign are cut from the low 15 bits. -/
theorem decompose16_of_low_eq {h g : Word16} (heq : h.extractLsb 14 0 = g.extractLsb 14 0) :
    (decompose16 h).E = (decompose16 g).E ∧ (decompose16 h).F = (decompose16 g).F := by
  have hlow : h.toNat % 2 ^ 15 = g.toNat % 2 ^ 15 := by simpa using congrArg BitVec.toNat heq
  constructor
  · apply BitVec.eq_of_toNat_eq
    rw [decompose16_E_toNat, decompose16_E_toNat]
    omega
  · apply BitVec.eq_of_toNat_eq
    rw [decompose16_F_toNat, decompose16_F_toNat]
    omega

theorem decompose16_xor_sign (h : Word16) : decompose16 (h ^^^ 0x8000#16) =
    { decompose16 h with s := (decompose16 h).s ^^^ 1#1 } := by
  simp only [decompose16, BitVec.extractLsb_xor]
  congr 1
  · exact BitVec.xor_zero
  · exact BitVec.xor_zero

/-- Settles O41: the word is the sign above `decodedFields`, which no sign enters. -/
theorem decodeSignPassesThrough : Obligations.DecodeSignPassesThrough := by
  unfold Obligations.DecodeSignPassesThrough
  refine ⟨fp16Decode_sign, fun h g heq => ?_, fun h => ?_⟩
  · obtain ⟨hE, hF⟩ := decompose16_of_low_eq heq
    rw [fp16Decode_low, fp16Decode_low, hE, hF]
  · rw [← compose32_decompose32 (fp16Decode h ^^^ _), decompose32_xor_sign, fp16Decode_eq, decompose16_xor_sign,
      decompose32_fp16Decode]

/-! ### The fields of each case (R81 to R84) -/

theorem decodedFields_infinityOrNaN (F : BitVec 10) : decodedFields 0x1F#5 F = (0xFF#8, widenFraction F) := rfl

theorem decodedFields_zero : decodedFields 0#5 0#10 = (0#8, 0#23) := rfl

/-- The `n` that brings the fraction's leading 1 to bit 10 is the number of passes of the loop of R83. -/
theorem decodedFields_subnormal {F : BitVec 10} {n : Nat} (hn : n ≤ 10) (hlo : 2 ^ 10 ≤ F.toNat * 2 ^ n)
    (hhi : F.toNat * 2 ^ n < 2 ^ 11) : decodedFields 0#5 F =
      (decodedExponent (1 - (n : Int)), widenFraction (BitVec.ofNat 10 (F.toNat * 2 ^ n % 2 ^ 10))) := by
  have hF : F ≠ 0#10 := by
    rintro rfl
    simp at hlo
  have hcase : decodeCase 0#5 F = .subnormal := by simp [decodeCase, hF]
  simp only [decodedFields, hcase, normalise_eq 1 hn hlo hhi]
  rw [← Nat.and_two_pow_sub_one_eq_mod]

theorem decodedFields_normal {E : BitVec 5} (hzero : E ≠ 0#5) (hones : E ≠ 0x1F#5) (F : BitVec 10) :
    decodedFields E F = (decodedExponent E.toNat, widenFraction F) := by
  have hcase : decodeCase E F = .normal := by simp [decodeCase, hzero, hones]
  simp only [decodedFields, hcase]

/-- Settles O36: the first case of `decodedFields`. -/
theorem decodeOfInfinityOrNaN : Obligations.DecodeOfInfinityOrNaN := by
  unfold Obligations.DecodeOfInfinityOrNaN
  intro h s hE
  have hE' : (decompose16 h).E = 0x1F#5 := hE
  rw [delivers_decode_iff, fp16Decode_eq, hE', decodedFields_infinityOrNaN]
  rfl

/-- Settles O37: the fields of a zero are all zeros. -/
theorem decodeOfZero : Obligations.DecodeOfZero := by
  unfold Obligations.DecodeOfZero
  intro h s hE hF
  have hE' : (decompose16 h).E = 0#5 := hE
  have hF' : (decompose16 h).F = 0#10 := hF
  rw [delivers_decode_iff, fp16Decode_eq, hE', hF', decodedFields_zero]
  exact decodeZero_eq _

/-- Settles O40: an exponent field that is neither zero nor all ones lies between 1 and 30. -/
theorem decodeOfNormal : Obligations.DecodeOfNormal := by
  unfold Obligations.DecodeOfNormal
  intro h s hzero hones
  have hlt := (h.extractLsb 14 10).isLt
  have hne0 : (h.extractLsb 14 10).toNat ≠ 0 := BitVec.toNat_ne_iff_ne.mpr hzero
  have hne31 : (h.extractLsb 14 10).toNat ≠ 0x1F := BitVec.toNat_ne_iff_ne.mpr hones
  refine ⟨by omega, by omega, ?_⟩
  rw [delivers_decode_iff, fp16Decode_eq, decodedFields_normal (E := (decompose16 h).E) hzero hones]
  rfl

/-- Settles O38: a fraction below `2 ^ 11` after `n` doublings was below `2 ^ 10` before each of them. -/
theorem decodeOfSubnormal : Obligations.DecodeOfSubnormal := by
  unfold Obligations.DecodeOfSubnormal
  intro h s hE hF
  have hE' : (decompose16 h).E = 0#5 := hE
  obtain ⟨n, hn1, hn10, -, hlo, hhi⟩ := normalise_fraction (BitVec.toNat_ne_iff_ne.mpr hF) (decompose16 h).F.isLt
  refine ⟨n, _, hn1, hn10, rfl, fun k hk => ?_, ?_, hlo, Nat.le_of_lt_succ hhi, ?_⟩
  · have hdouble : (h.extractLsb 9 0).toNat * 2 ^ (k + 1) ≤ (h.extractLsb 9 0).toNat * 2 ^ n :=
      Nat.mul_le_mul_left _ (Nat.pow_le_pow_right two_pos hk)
    rw [pow_succ, ← Nat.mul_assoc] at hdouble
    exact Nat.testBit_lt_two_pow (by omega)
  · exact Nat.testBit_of_two_pow_le_and_two_pow_add_one_gt hlo hhi
  · rw [delivers_decode_iff, fp16Decode_eq, hE', decodedFields_subnormal (F := (decompose16 h).F) hn10 hlo hhi]
    rfl

theorem widenFraction_ofNat (m : Nat) :
    widenFraction (BitVec.ofNat 10 (m % 2 ^ 10)) = BitVec.ofNat 23 (m * 2 ^ 13 % 2 ^ 23) := by
  apply BitVec.eq_of_toNat_eq
  rw [widenFraction_toNat, BitVec.toNat_ofNat, BitVec.toNat_ofNat]
  omega

theorem widenFraction_eq_zero_iff (F : BitVec 10) : widenFraction F = 0#23 ↔ F = 0#10 := by
  rw [← BitVec.toNat_inj, ← BitVec.toNat_inj, widenFraction_toNat, BitVec.toNat_zero, BitVec.toNat_zero]
  omega

/-- Settles O39: a highest set bit `k` takes `10 - k` passes of the loop to bit 10. -/
theorem decodeOfSubnormalInClosedForm : Obligations.DecodeOfSubnormalInClosedForm := by
  unfold Obligations.DecodeOfSubnormalInClosedForm
  intro h k hE hbit hlt
  have hE' : (decompose16 h).E = 0#5 := hE
  have hge : 2 ^ k ≤ (decompose16 h).F.toNat := Nat.ge_two_pow_of_testBit hbit
  have hk : k < 10 := (Nat.pow_lt_pow_iff_right one_lt_two).mp (hge.trans_lt (decompose16 h).F.isLt)
  obtain ⟨n, hn⟩ : ∃ n, k + n = 10 := ⟨_, Nat.add_sub_cancel' hk.le⟩
  have hlo : 2 ^ 10 ≤ (decompose16 h).F.toNat * 2 ^ n :=
    calc 2 ^ 10 = 2 ^ k * 2 ^ n := by rw [← pow_add, hn]
      _ ≤ _ := Nat.mul_le_mul_right _ hge
  have hhi : (decompose16 h).F.toNat * 2 ^ n < 2 ^ 11 :=
    calc _ < 2 ^ (k + 1) * 2 ^ n := Nat.mul_lt_mul_of_pos_right hlt (by positivity)
      _ = 2 ^ 11 := by rw [← pow_add, Nat.add_right_comm, hn]
  have hexponent : decodedExponent (1 - (n : Int)) = BitVec.ofNat 8 (k + 103) := by
    rw [decodedExponent, show (1 - (n : Int) + 112).toNat = k + 103 by omega]
  rw [fp16Decode_eq, hE', decodedFields_subnormal (by omega) hlo hhi, widenFraction_ofNat, hexponent, Nat.mul_assoc,
    ← pow_add, show n + 13 = 23 - k by omega]
  rfl

/-! ### Classes and values (R86) -/

theorem decompose32_fp16Decode_of_ones {h : Word16} (hones : (decompose16 h).E = 0x1F#5) : decompose32 (fp16Decode h) =
    { s := (decompose16 h).s, E := 0xFF#8, F := widenFraction (decompose16 h).F } := by
  rw [decompose32_fp16Decode, hones, decodedFields_infinityOrNaN]

theorem quietBit32_fp16Decode_of_ones {h : Word16} (hones : (decompose16 h).E = 0x1F#5) :
    quietBit32 (fp16Decode h) = quietBit16 h := by
  rw [← decompose32_F_top, ← decompose16_F_top, decompose32_fp16Decode_of_ones hones, widenFraction,
    BitVec.getLsbD_append]
  rfl

/-- A finite nonzero operand of magnitude `(1024 + F) * 2 ^ (x - 25)`, a subnormal's `x` being 0 or less, goes out as
R84 says of exponent `x` and fraction `F`. -/
theorem decompose32_fp16Decode_of_finite_nonzero {h : Word16} (hones : (decompose16 h).E ≠ 0x1F#5)
    (hzero : ¬((decompose16 h).E = 0#5 ∧ (decompose16 h).F = 0#10)) : ∃ (x : Int) (F : BitVec 10), -9 ≤ x ∧ x ≤ 30 ∧
      decompose32 (fp16Decode h) = { s := (decompose16 h).s, E := decodedExponent x, F := widenFraction F } ∧
      units16 h * 2 ^ 10 = (2 ^ 10 + F.toNat) * 2 ^ (x + 9).toNat := by
  rw [decompose32_fp16Decode]
  by_cases hE : (decompose16 h).E = 0#5
  · obtain ⟨n, hn1, hn10, -, hlo, hhi⟩ :=
      normalise_fraction (BitVec.toNat_ne_iff_ne.mpr fun hF => hzero ⟨hE, hF⟩) (decompose16 h).F.isLt
    refine ⟨1 - n, BitVec.ofNat 10 ((decompose16 h).F.toNat * 2 ^ n % 2 ^ 10), by omega, by omega, ?_, ?_⟩
    · rw [hE, decodedFields_subnormal hn10 hlo hhi]
    · have hlead : 2 ^ 10 + (BitVec.ofNat 10 ((decompose16 h).F.toNat * 2 ^ n % 2 ^ 10)).toNat =
          (decompose16 h).F.toNat * 2 ^ n := by
        rw [BitVec.toNat_ofNat]
        omega
      rw [units16_of_exponent_zero hE, hlead, Nat.mul_assoc, ← pow_add]
      congr 2
      omega
  · have := (decompose16 h).E.isLt
    have : (decompose16 h).E.toNat ≠ 0 := BitVec.toNat_ne_iff_ne.mpr hE
    have : (decompose16 h).E.toNat ≠ 0x1F := BitVec.toNat_ne_iff_ne.mpr hones
    refine ⟨(decompose16 h).E.toNat, (decompose16 h).F, by omega, by omega, ?_, ?_⟩
    · rw [decodedFields_normal hE hones]
    · rw [units16, if_neg hE, Nat.mul_assoc, ← pow_add]
      congr 2
      omega

theorem decodedExponent_ne_zero {x : Int} (hlo : -9 ≤ x) (hhi : x ≤ 30) : decodedExponent x ≠ 0#8 := by
  have := decodedExponent_toNat (x := x) (by omega) (by omega)
  exact BitVec.toNat_ne_iff_ne.mp (show _ ≠ 0 by omega)

theorem decodedExponent_ne_ones {x : Int} (hlo : -9 ≤ x) (hhi : x ≤ 30) : decodedExponent x ≠ 0xFF#8 := by
  have := decodedExponent_toNat (x := x) (by omega) (by omega)
  exact BitVec.toNat_ne_iff_ne.mp (show _ ≠ 0xFF by omega)

/-- Settles O52: the tests of R52 that an infinity, a NaN or a zero passes, its result passes too; every other result
is a normal (`decompose32_fp16Decode_of_finite_nonzero`). -/
theorem decodeKeepsTheClassButNormalises : Obligations.DecodeKeepsTheClassButNormalises := by
  unfold Obligations.DecodeKeepsTheClassButNormalises
  intro h
  rw [classify32_eq, classify16_eq, fp16Decode_sign]
  by_cases hones : (decompose16 h).E = 0x1F#5
  · rw [decompose32_fp16Decode_of_ones hones, quietBit32_fp16Decode_of_ones hones, hones]
    simp only [widenFraction_eq_zero_iff]
    cases decide ((decompose16 h).F = 0#10) with
    | true => cases h.getLsbD 15 <;> rfl
    | false => cases quietBit16 h <;> rfl
  by_cases hzero : (decompose16 h).E = 0#5 ∧ (decompose16 h).F = 0#10
  · rw [decompose32_fp16Decode, hzero.1, hzero.2]
    cases h.getLsbD 15 <;> rfl
  · obtain ⟨x, F, hlo, hhi, hfields, -⟩ := decompose32_fp16Decode_of_finite_nonzero hones hzero
    rw [hfields, decide_eq_false (decodedExponent_ne_zero hlo hhi), decide_eq_false (decodedExponent_ne_ones hlo hhi),
      decide_eq_false hones]
    by_cases hE : (decompose16 h).E = 0#5
    · rw [decide_eq_true hE, decide_eq_false fun hF => hzero ⟨hE, hF⟩]
      cases h.getLsbD 15 <;> rfl
    · rw [decide_eq_false hE]
      cases h.getLsbD 15 <;> rfl

/-- The units are `2 ^ -149` and `2 ^ -24`, so the magnitude is the same. -/
theorem units32_fp16Decode {h : Word16} (hones : (decompose16 h).E ≠ 0x1F#5) :
    units32 (fp16Decode h) = units16 h * 2 ^ 125 := by
  by_cases hzero : (decompose16 h).E = 0#5 ∧ (decompose16 h).F = 0#10
  · simp [units32, units16, decompose32_fp16Decode, hzero, decodedFields_zero]
  · obtain ⟨x, F, hlo, hhi, hfields, hunits⟩ := decompose32_fp16Decode_of_finite_nonzero hones hzero
    have hx := decodedExponent_toNat (x := x) (by omega) (by omega)
    calc units32 (fp16Decode h) = (2 ^ 23 + F.toNat * 2 ^ 13) * 2 ^ ((decodedExponent x).toNat - 1) := by
          rw [units32, hfields, if_neg (decodedExponent_ne_zero hlo hhi), widenFraction_toNat]
      _ = (2 ^ 10 + F.toNat) * 2 ^ (x + 9).toNat * 2 ^ 115 := by
          rw [show (decodedExponent x).toNat - 1 = (x + 9).toNat + 102 by omega, pow_add]
          ring
      _ = units16 h * 2 ^ 125 := by
          rw [← hunits]
          ring

theorem decompose32_fp16Decode_exponent_ne_ones {h : Word16} (hones : (decompose16 h).E ≠ 0x1F#5) :
    (decompose32 (fp16Decode h)).E ≠ 0xFF#8 := by
  by_cases hzero : (decompose16 h).E = 0#5 ∧ (decompose16 h).F = 0#10
  · simp [decompose32_fp16Decode, hzero, decodedFields_zero]
  · obtain ⟨x, F, hlo, hhi, hfields, -⟩ := decompose32_fp16Decode_of_finite_nonzero hones hzero
    rw [hfields]
    exact decodedExponent_ne_ones hlo hhi

theorem value32_fp16Decode (h : Word16) : value32 (fp16Decode h) = value16 h := by
  rw [value32_eq, value16_eq, fp16Decode_sign]
  by_cases hones : (decompose16 h).E = 0x1F#5
  · rw [decompose32_fp16Decode_of_ones hones, quietBit32_fp16Decode_of_ones hones, hones]
    simp only [widenFraction_eq_zero_iff]
    rfl
  · have hmagnitude : (units32 (fp16Decode h) : ℚ) / 2 ^ 149 = units16 h / 2 ^ 24 := by
      rw [units32_fp16Decode hones]
      push_cast
      ring
    rw [hmagnitude, decide_eq_false hones, decide_eq_false (decompose32_fp16Decode_exponent_ne_ones hones)]
    rfl

theorem exponent_ones_of_value16_eq_nan {h : Word16} {q : Bool} (hnan : value16 h = .nan q) :
    (decompose16 h).E = 0x1F#5 := by
  by_contra hones
  simp [value16, hones] at hnan

theorem fp16Decode_payload_of_ones {h : Word16} (hones : (decompose16 h).E = 0x1F#5) :
    (fp16Decode h).extractLsb 22 13 = h.extractLsb 9 0 := by
  calc (fp16Decode h).extractLsb 22 13 = (decompose32 (fp16Decode h)).F.extractLsb 22 13 :=
        (BitVec.extractLsb'_extractLsb'_of_le (by decide)).symm
    _ = (widenFraction (decompose16 h).F).extractLsb 22 13 := by rw [decompose32_fp16Decode_of_ones hones]
    _ = h.extractLsb 9 0 := BitVec.extractLsb'_append_eq_left

/-- Settles O42: `value32_fp16Decode` speaks of every word, NaNs and their quiet bit included. -/
theorem decodeIsExact : Obligations.DecodeIsExact := by
  unfold Obligations.DecodeIsExact
  refine ⟨fun h _ => ⟨value32_fp16Decode h, fp16Decode_sign h⟩, fun h q hnan => ?_⟩
  have hones := exponent_ones_of_value16_eq_nan hnan
  exact ⟨(value32_fp16Decode h).trans hnan, fp16Decode_sign h, quietBit32_fp16Decode_of_ones hones,
    fp16Decode_payload_of_ones hones⟩

end Sys2Proof.Machine
end

section
/-! PROOFS. Magnitude words: the bits of a finite word below its sign, read as a number, order the words of either
format as the numbers they denote. -/

namespace Sys2Proof.Machine

/-! ### The magnitude of a word, from its bits below the sign (R32, R33) -/

/-- The magnitude, in units of the smallest positive value of a format with fraction fields of `p` bits, of the word
whose bits below the sign are the number `n`. -/
def packedUnits (p n : Nat) : Nat :=
  if n / 2 ^ p = 0 then n % 2 ^ p else (2 ^ p + n % 2 ^ p) * 2 ^ (n / 2 ^ p - 1)

/-- Up to the smallest normal a magnitude word is the magnitude itself. -/
theorem packedUnits_of_le {p n : Nat} (hn : n ≤ 2 ^ p) : packedUnits p n = n := by
  rcases hn.lt_or_eq with hlt | rfl
  · rw [packedUnits, if_pos (Nat.div_eq_of_lt hlt), Nat.mod_eq_of_lt hlt]
  · simp [packedUnits, Nat.div_self (Nat.two_pow_pos p)]

/-- A fraction of `2 ^ p` is a carry into the exponent, and means the same number there. -/
theorem packedUnits_normal {p E f : Nat} (hE : 1 ≤ E) (hf : f ≤ 2 ^ p) :
    packedUnits p (E * 2 ^ p + f) = (2 ^ p + f) * 2 ^ (E - 1) := by
  have hpos : 0 < 2 ^ p := Nat.two_pow_pos p
  rcases hf.lt_or_eq with hlt | rfl
  · have hdiv : (E * 2 ^ p + f) / 2 ^ p = E := by
      rw [Nat.add_comm, Nat.add_mul_div_right _ _ hpos, Nat.div_eq_of_lt hlt, Nat.zero_add]
    have hmod : (E * 2 ^ p + f) % 2 ^ p = f := by rw [Nat.mul_add_mod_self_right, Nat.mod_eq_of_lt hlt]
    rw [packedUnits, hdiv, hmod, if_neg (by omega)]
  · have hcarry : E * 2 ^ p + 2 ^ p = (E + 1) * 2 ^ p := (Nat.succ_mul _ _).symm
    rw [hcarry, packedUnits, Nat.mul_div_cancel _ hpos, Nat.mul_mod_left, if_neg (by omega), Nat.add_sub_cancel,
      Nat.add_zero, ← two_mul, Nat.mul_right_comm, ← pow_succ', Nat.sub_add_cancel hE, Nat.mul_comm]

/-- From one magnitude word to the next is one unit of the last place. -/
theorem packedUnits_succ (p n : Nat) : packedUnits p (n + 1) = packedUnits p n + 2 ^ (n / 2 ^ p - 1) := by
  have hf : n % 2 ^ p + 1 ≤ 2 ^ p := Nat.mod_lt n (Nat.two_pow_pos p)
  rcases Nat.eq_zero_or_pos (n / 2 ^ p) with hE | hE
  · have hn : n + 1 ≤ 2 ^ p := (Nat.div_eq_zero_iff_lt (Nat.two_pow_pos p)).mp hE
    rw [packedUnits_of_le hn, packedUnits_of_le (Nat.le_of_succ_le hn), hE, Nat.zero_sub, pow_zero]
  · have hnext : n / 2 ^ p * 2 ^ p + (n % 2 ^ p + 1) = n + 1 := congrArg (· + 1) (Nat.div_add_mod' n (2 ^ p))
    calc packedUnits p (n + 1) = (2 ^ p + (n % 2 ^ p + 1)) * 2 ^ (n / 2 ^ p - 1) := by
          rw [← packedUnits_normal hE hf, hnext]
      _ = packedUnits p n + 2 ^ (n / 2 ^ p - 1) := by
          rw [packedUnits, if_neg (by omega)]
          ring

theorem packedUnits_strictMono (p : Nat) : StrictMono (packedUnits p) :=
  strictMono_nat_of_lt_succ fun n => by
    rw [packedUnits_succ]
    exact Nat.lt_add_of_pos_right (Nat.two_pow_pos _)

/-! ### The words of the two formats -/

theorem low_eq_fields16 (h : Word16) :
    (h.extractLsb 14 0).toNat = (decompose16 h).E.toNat * 2 ^ 10 + (decompose16 h).F.toNat := by
  rw [BitVec.extractLsb_toNat, Nat.shiftRight_zero, decompose16_E_toNat, decompose16_F_toNat]
  omega

theorem low_eq_fields32 (w : Word32) :
    (w.extractLsb 30 0).toNat = (decompose32 w).E.toNat * 2 ^ 23 + (decompose32 w).F.toNat := by
  rw [BitVec.extractLsb_toNat, Nat.shiftRight_zero, decompose32_E_toNat, decompose32_F_toNat]
  omega

/-- The infinities and NaNs are the magnitude words from `0x7C00` on. -/
theorem low_of_exponent_ones {h : Word16} (hones : (decompose16 h).E = 0x1F#5) :
    (h.extractLsb 14 0).toNat = 0x7C00 + (decompose16 h).F.toNat := by
  rw [low_eq_fields16, hones]
  rfl

theorem units16_eq_packedUnits (h : Word16) : units16 h = packedUnits 10 (h.extractLsb 14 0).toNat := by
  have hF := (decompose16 h).F.isLt
  rw [low_eq_fields16]
  by_cases hE : (decompose16 h).E = 0#5
  · rw [units16_of_exponent_zero hE, hE, packedUnits_of_le (by simpa using hF.le)]
    simp
  · have hE0 : (decompose16 h).E.toNat ≠ 0 := BitVec.toNat_ne_iff_ne.mpr hE
    rw [packedUnits_normal (by omega) hF.le, units16, if_neg hE]
    rfl

theorem units32_eq_packedUnits (w : Word32) : units32 w = packedUnits 23 (w.extractLsb 30 0).toNat := by
  have hF := (decompose32 w).F.isLt
  rw [low_eq_fields32]
  by_cases hE : (decompose32 w).E = 0#8
  · rw [units32_of_exponent_zero hE, hE, packedUnits_of_le (by simpa using hF.le)]
    simp
  · have hE0 : (decompose32 w).E.toNat ≠ 0 := BitVec.toNat_ne_iff_ne.mpr hE
    rw [packedUnits_normal (by omega) hF.le, units32, if_neg hE]

/-- A word is its sign and the bits below it. -/
theorem word16_ext {h g : Word16} (hsign : h.getLsbD 15 = g.getLsbD 15)
    (hlow : h.extractLsb 14 0 = g.extractLsb 14 0) : h = g := by
  obtain ⟨hE, hF⟩ := decompose16_of_low_eq hlow
  have hs : (decompose16 h).s = (decompose16 g).s := by rw [decompose16_s_eq, decompose16_s_eq, hsign]
  rw [← compose16_decompose16 h, ← compose16_decompose16 g, compose16, compose16, hs, hE, hF]

theorem word32_ext {w v : Word32} (hsign : w.getLsbD 31 = v.getLsbD 31)
    (hlow : w.extractLsb 30 0 = v.extractLsb 30 0) : w = v := by
  obtain ⟨hE, hF⟩ := decompose32_of_low_eq hlow
  have hs : (decompose32 w).s = (decompose32 v).s := by rw [decompose32_s_eq, decompose32_s_eq, hsign]
  rw [← compose32_decompose32 w, ← compose32_decompose32 v, compose32, compose32, hs, hE, hF]

theorem word32_ext_of_units {w v : Word32} (hsign : w.getLsbD 31 = v.getLsbD 31) (hunits : units32 w = units32 v) :
    w = v := by
  rw [units32_eq_packedUnits, units32_eq_packedUnits] at hunits
  exact word32_ext hsign (BitVec.eq_of_toNat_eq ((packedUnits_strictMono 23).injective hunits))

/-! ### Numbers in units -/

theorem number16_eq_signed (h : Word16) : number16 h = (-1) ^ (h.getLsbD 15).toNat * (units16 h / 2 ^ 24) := by
  rw [number16_eq, decompose16_s_eq, BitVec.toNat_ofBool]

theorem number32_eq_signed (w : Word32) : number32 w = (-1) ^ (w.getLsbD 31).toNat * (units32 w / 2 ^ 149) := by
  rw [number32_eq, decompose32_s_eq, BitVec.toNat_ofBool]

theorem abs_number16_eq (h : Word16) : |number16 h| = units16 h / 2 ^ 24 := by
  rw [number16_eq, abs_mul, abs_neg_one_pow, one_mul, abs_of_nonneg (by positivity)]

theorem abs_number32_eq (w : Word32) : |number32 w| = units32 w / 2 ^ 149 := by
  rw [number32_eq, abs_mul, abs_neg_one_pow, one_mul, abs_of_nonneg (by positivity)]

/-- The magnitude of the binary16 magnitude word `m` in units of `2 ^ -149`, the smallest positive binary32 value. -/
def gridUnits (m : Nat) : Nat := packedUnits 10 m * 2 ^ 125

theorem gridUnits_strictMono : StrictMono gridUnits :=
  (packedUnits_strictMono 10).mul_const (by positivity)

theorem units16_mul_eq_gridUnits (h : Word16) : units16 h * 2 ^ 125 = gridUnits (h.extractLsb 14 0).toNat := by
  rw [units16_eq_packedUnits, gridUnits]

theorem abs_number16_eq_gridUnits (h : Word16) :
    |number16 h| = gridUnits (h.extractLsb 14 0).toNat / 2 ^ 149 := by
  rw [abs_number16_eq, ← units16_mul_eq_gridUnits]
  push_cast
  ring

theorem number16_ofNat {m : Nat} (hm : m < 2 ^ 15) : number16 (BitVec.ofNat 16 m) = gridUnits m / 2 ^ 149 := by
  have hsign : (BitVec.ofNat 16 m).getLsbD 15 = false := by
    rw [BitVec.getLsbD_ofNat, Nat.testBit_lt_two_pow hm, Bool.and_false]
  have hlow : ((BitVec.ofNat 16 m).extractLsb 14 0).toNat = m := by
    rw [BitVec.extractLsb_toNat, Nat.shiftRight_zero, BitVec.toNat_ofNat]
    omega
  have hnonneg : 0 ≤ number16 (BitVec.ofNat 16 m) := by
    rw [number16_eq_signed, hsign]
    simp only [Bool.toNat_false, pow_zero, one_mul]
    positivity
  rw [← abs_of_nonneg hnonneg, abs_number16_eq_gridUnits, hlow]

end Sys2Proof.Machine
end

section
/-! PROOFS. ENCODE rounds to the nearest magnitude word, ties to the even one (spec/43_laws.md R92, R94, R95, R97,
R100): each law is read off the two magnitude words on either side of the input. -/

namespace Sys2Proof.Machine

/-! ### Rounding on a rising grid -/

/-- `u` lies between the neighbours `q` and `q + 1` of the rising grid `g`, and `m` is the nearer of them, the even one
when `u` is halfway. -/
def RoundsToEven (g : Nat → Nat) (u m : Nat) : Prop :=
  ∃ q, g q ≤ u ∧ u < g (q + 1) ∧
    m = q + if g q + g (q + 1) < 2 * u ∨ (2 * u = g q + g (q + 1) ∧ q % 2 = 1) then 1 else 0

namespace RoundsToEven

variable {g : Nat → Nat} {u u' m m' : Nat}

/-- No other point of the grid is nearer, and one is as near only to an even point. -/
theorem nearest (hg : StrictMono g) (h : RoundsToEven g u m) (m' : Nat) :
    ((u : Int) - g m).natAbs ≤ ((u : Int) - g m').natAbs ∧
      (m' ≠ m → ((u : Int) - g m).natAbs = ((u : Int) - g m').natAbs → m % 2 = 0) := by
  obtain ⟨q, hlo, hhi, rfl⟩ := h
  rcases Nat.lt_or_ge q m' with hm' | hm'
  · have habove : g (q + 1) ≤ g m' := hg.monotone hm'
    have hfar : m' ≠ q + 1 → g (q + 1) < g m' := fun hne => hg (by omega)
    split_ifs with hup
    · omega
    · rw [Nat.add_zero]
      omega
  · have hbelow : g m' ≤ g q := hg.monotone hm'
    have hfar : m' ≠ q → g m' < g q := fun hne => hg (by omega)
    split_ifs with hup
    · omega
    · rw [Nat.add_zero]
      omega

/-- A point of the grid is not rounded. -/
theorem eq_of_eq (hg : StrictMono g) (h : RoundsToEven g u m) (hu : u = g m') : m = m' := by
  obtain ⟨hnear, -⟩ := h.nearest hg m'
  exact hg.injective (by omega)

theorem mono (hg : StrictMono g) (h : RoundsToEven g u m) (h' : RoundsToEven g u' m') (hle : u ≤ u') : m ≤ m' := by
  obtain ⟨q, hlo, hhi, rfl⟩ := h
  obtain ⟨q', hlo', hhi', rfl⟩ := h'
  have hqq : q < q' + 1 := hg.lt_iff_lt.mp (by omega)
  rcases (Nat.le_of_lt_succ hqq).lt_or_eq with hlt | rfl
  · split_ifs <;> omega
  · split_ifs <;> omega

theorem le_of_le (hg : StrictMono g) (h : RoundsToEven g u m) (hle : g m' ≤ u) : m' ≤ m := by
  obtain ⟨q, hlo, hhi, rfl⟩ := h
  have hq : m' < q + 1 := hg.lt_iff_lt.mp (by omega)
  omega

theorem le_succ_of_lt (hg : StrictMono g) (h : RoundsToEven g u m) {n : Nat} (hlt : u < g (n + 1)) : m ≤ n + 1 := by
  obtain ⟨q, hlo, hhi, rfl⟩ := h
  have hq : q < n + 1 := hg.lt_iff_lt.mp (by omega)
  split_ifs <;> omega

/-- Halfway from an odd point to the next, rounding reaches the next. -/
theorem succ_le_iff_of_odd (hg : StrictMono g) (h : RoundsToEven g u m) {n : Nat} (hodd : n % 2 = 1) :
    n + 1 ≤ m ↔ g n + g (n + 1) ≤ 2 * u := by
  obtain ⟨q, hlo, hhi, rfl⟩ := h
  rcases lt_trichotomy q n with hlt | rfl | hgt
  · have hle : g (q + 1) ≤ g n := hg.monotone hlt
    have hstep : g n < g (n + 1) := hg n.lt_succ_self
    split_ifs <;> omega
  · split_ifs <;> omega
  · have hle : g (n + 1) ≤ g q := hg.monotone hgt
    have hstep : g n < g (n + 1) := hg n.lt_succ_self
    split_ifs <;> omega

/-- `rne` rounds on a grid whose points about `n * s` are the multiples of `2 ^ k * s`. -/
theorem of_rne {n k s c : Nat} (hk : 1 ≤ k) (hs : 0 < s) (hc : c % 2 = 0)
    (hgrid : ∀ r, n / 2 ^ k ≤ r → r ≤ n / 2 ^ k + 1 → g (c + r) = r * 2 ^ k * s) :
    RoundsToEven g (n * s) (c + rne n k) := by
  have hlt : n % 2 ^ k < 2 ^ k := Nat.mod_lt _ (Nat.two_pow_pos k)
  have hn : n = n / 2 ^ k * 2 ^ k + n % 2 ^ k := (Nat.div_add_mod' n _).symm
  have hhalf : 2 ^ k = 2 * 2 ^ (k - 1) := by rw [← pow_succ', Nat.sub_add_cancel hk]
  have hq := hgrid _ le_rfl (Nat.le_succ _)
  have hq' : g (c + n / 2 ^ k + 1) = (n / 2 ^ k * 2 ^ k + 2 ^ k) * s := by
    rw [Nat.add_assoc, hgrid _ (Nat.le_succ _) le_rfl, Nat.succ_mul]
  have hmid : g (c + n / 2 ^ k) + g (c + n / 2 ^ k + 1) = (2 * (n / 2 ^ k * 2 ^ k) + 2 ^ k) * s := by
    rw [hq, hq']
    ring
  have htwice : 2 * (n * s) = 2 * n * s := (Nat.mul_assoc ..).symm
  refine ⟨c + n / 2 ^ k, ?_, ?_, ?_⟩
  · rw [hq]
    exact Nat.mul_le_mul_right s (Nat.div_mul_le_self n _)
  · rw [hq']
    exact Nat.mul_lt_mul_of_pos_right (by omega) hs
  · rw [rne_eq n hk, ← Nat.add_assoc]
    refine congrArg (c + n / 2 ^ k + ·) (if_congr ?_ rfl rfl)
    rw [hmid, htwice, Nat.mul_lt_mul_right hs, Nat.mul_left_inj hs.ne']
    omega

end RoundsToEven

/-! ### ENCODE rounds -/

theorem gridUnits_of_le {m : Nat} (hm : m ≤ 2 ^ 10) : gridUnits m = m * 2 ^ 125 := by
  rw [gridUnits, packedUnits_of_le hm]

theorem gridUnits_normal {e f : Nat} (he : 1 ≤ e) (hf : f ≤ 2 ^ 10) :
    gridUnits (e * 2 ^ 10 + f) = (2 ^ 10 + f) * 2 ^ 13 * 2 ^ (e + 111) := by
  have hunit : (2 : Nat) ^ (e - 1) * 2 ^ 125 = 2 ^ 13 * 2 ^ (e + 111) := by
    rw [← pow_add, ← pow_add]
    congr 1
    omega
  rw [gridUnits, packedUnits_normal he hf, Nat.mul_assoc, Nat.mul_assoc, hunit]

theorem units32_of_exponent_ne_zero {w : Word32} (hE : (decompose32 w).E ≠ 0#8) :
    units32 w = significand (decompose32 w).F * 2 ^ ((decompose32 w).E.toNat - 1) :=
  if_neg hE

theorem units32_lt_of_exponent_lt {w : Word32} {n : Nat} (hE : (decompose32 w).E.toNat < n) :
    units32 w < 2 ^ 23 * 2 ^ (n - 1) := by
  have hF := (decompose32 w).F.isLt
  calc units32 w < packedUnits 23 (n * 2 ^ 23 + 0) := by
        rw [units32_eq_packedUnits, low_eq_fields32]
        exact packedUnits_strictMono 23 (by omega)
    _ = 2 ^ 23 * 2 ^ (n - 1) := packedUnits_normal (by omega) (Nat.zero_le _)

theorem low_sign_append (s : BitVec 1) {m : Nat} (hm : m ≤ 0x7C00) :
    ((s ++ BitVec.ofNat 15 m : Word16).extractLsb 14 0).toNat = m := by
  have hlow : (s ++ BitVec.ofNat 15 m : Word16).extractLsb 14 0 = BitVec.ofNat 15 m :=
    BitVec.extractLsb'_append_eq_right
  rw [hlow, bits15_toNat hm]

/-- Exponent fields 113 to 142: in the normal case the grid has a point at every `2 ^ 13` of the significand. -/
theorem fp16Encode_roundsToEven_of_normal {w : Word32} (hlo : 113 ≤ (decompose32 w).E.toNat)
    (hhi : (decompose32 w).E.toNat ≤ 142) :
    RoundsToEven gridUnits (units32 w) ((fp16Encode w).extractLsb 14 0).toNat := by
  obtain ⟨e, he⟩ : ∃ e, (decompose32 w).E.toNat = e + 112 := ⟨_, (Nat.sub_add_cancel (by omega)).symm⟩
  have hF := (decompose32 w).F.isLt
  have hE0 : (decompose32 w).E ≠ 0#8 := BitVec.toNat_ne_iff_ne.mp (show (decompose32 w).E.toNat ≠ 0 by omega)
  have hrebias : (e : Int) = rebias (decompose32 w).E := by rw [rebias_eq]; omega
  have hmax := rne_fraction_le (decompose32 w).F
  have hsig : rne (significand (decompose32 w).F) 13 = 2 ^ 10 + rne (decompose32 w).F.toNat 13 := by
    rw [rne_eq _ (by decide), rne_eq _ (by decide), significand]
    split_ifs <;> omega
  have hword : ((fp16Encode w).extractLsb 14 0).toNat =
      (e - 1) * 2 ^ 10 + rne (significand (decompose32 w).F) 13 := by
    rw [fp16Encode_of_normal hrebias (by omega) (by omega), Int.toNat_natCast, low_sign_append _ (by omega), hsig]
    omega
  rw [hword, units32_of_exponent_ne_zero hE0, he]
  refine .of_rne (by decide) (by positivity) (by omega) fun r hr hr' => ?_
  obtain ⟨f, rfl⟩ : ∃ f, r = 2 ^ 10 + f := ⟨_, (Nat.add_sub_cancel' (by rw [significand] at hr; omega)).symm⟩
  rw [← Nat.add_assoc, ← Nat.succ_mul, Nat.succ_eq_add_one, Nat.sub_add_cancel (by omega)]
  exact gridUnits_normal (by omega) (by rw [significand] at hr'; omega)

/-- Exponent fields 102 to 112: the grid has a point at every `2 ^ sh` of the significand, as far as the smallest
normal. -/
theorem fp16Encode_roundsToEven_of_subnormal {w : Word32} (hlo : 102 ≤ (decompose32 w).E.toNat)
    (hhi : (decompose32 w).E.toNat ≤ 112) :
    RoundsToEven gridUnits (units32 w) ((fp16Encode w).extractLsb 14 0).toNat := by
  have hE0 : (decompose32 w).E ≠ 0#8 := BitVec.toNat_ne_iff_ne.mp (show (decompose32 w).E.toNat ≠ 0 by omega)
  have hrebias := rebias_eq (decompose32 w).E
  have hsh : 14 ≤ subnormalShift (rebias (decompose32 w).E) := by rw [subnormalShift]; omega
  have hunit : 2 ^ 125 = 2 ^ subnormalShift (rebias (decompose32 w).E) * 2 ^ ((decompose32 w).E.toNat - 1) := by
    rw [← pow_add, subnormalShift]
    congr 1
    omega
  have hkept := keptBits_significand_le (decompose32 w).F hsh
  rw [keptBits_eq] at hkept
  rw [fp16Encode_of_subnormal rfl (by omega) (by omega),
    low_sign_append _ ((rne_significand_le _ hsh).trans (by decide)), units32_of_exponent_ne_zero hE0,
    ← Nat.zero_add (rne ..)]
  refine .of_rne (by omega) (by positivity) rfl fun r hr hr' => ?_
  rw [Nat.zero_add, gridUnits_of_le (by omega), hunit, Nat.mul_assoc]

/-- Exponent fields up to 101: the magnitude is less than half of the smallest subnormal. -/
theorem fp16Encode_roundsToEven_of_tooSmall {w : Word32} (hhi : (decompose32 w).E.toNat ≤ 101) :
    RoundsToEven gridUnits (units32 w) ((fp16Encode w).extractLsb 14 0).toNat := by
  have hrebias := rebias_eq (decompose32 w).E
  have hsmall : units32 w < 2 ^ 23 * 2 ^ (102 - 1) := units32_lt_of_exponent_lt (by omega)
  have hzero : gridUnits 0 = 0 := gridUnits_of_le (by decide)
  have hone : gridUnits (0 + 1) = 1 * 2 ^ 125 := gridUnits_of_le (by decide)
  rw [fp16Encode_of_tooSmall (by omega), low_sign_append _ (by decide)]
  refine ⟨0, by omega, by omega, ?_⟩
  rw [if_neg (by omega)]

/-- Below rebiased exponent 31 ENCODE rounds the magnitude on the grid of the binary16 magnitude words, the infinity
pattern standing for `2 ^ 16`. -/
theorem fp16Encode_roundsToEven {w : Word32} (hhi : (decompose32 w).E.toNat ≤ 142) :
    RoundsToEven gridUnits (units32 w) ((fp16Encode w).extractLsb 14 0).toNat := by
  rcases Nat.lt_or_ge (decompose32 w).E.toNat 102 with hsmall | hlo
  · exact fp16Encode_roundsToEven_of_tooSmall (by omega)
  rcases Nat.lt_or_ge (decompose32 w).E.toNat 113 with hsub | hnormal
  · exact fp16Encode_roundsToEven_of_subnormal hlo (by omega)
  · exact fp16Encode_roundsToEven_of_normal hnormal hhi

/-! ### The overflow boundary (R94) -/

theorem le_units32_of_le_exponent {w : Word32} {n : Nat} (hn : 1 ≤ n) (hE : n ≤ (decompose32 w).E.toNat) :
    2 ^ 23 * 2 ^ (n - 1) ≤ units32 w := by
  calc 2 ^ 23 * 2 ^ (n - 1) = packedUnits 23 (n * 2 ^ 23 + 0) := (packedUnits_normal hn (Nat.zero_le _)).symm
    _ ≤ units32 w := by
        rw [units32_eq_packedUnits, low_eq_fields32]
        exact (packedUnits_strictMono 23).monotone (by omega)

theorem exponent_le_254 {w : Word32} (hfinite : (decompose32 w).E ≠ 0xFF#8) : (decompose32 w).E.toNat ≤ 254 := by
  have hlt := (decompose32 w).E.isLt
  have hne : (decompose32 w).E.toNat ≠ 0xFF := BitVec.toNat_ne_iff_ne.mpr hfinite
  omega

theorem gridUnits_infinity : gridUnits (0x7BFF + 1) = 65536 * 2 ^ 149 :=
  gridUnits_normal (e := 31) (f := 0) (by decide) (by decide)

theorem gridUnits_largest : gridUnits 0x7BFF = 65504 * 2 ^ 149 :=
  gridUnits_normal (e := 30) (f := 0x3FF) (by decide) (by decide)

theorem exponent_le_142_of_lt {w : Word32} (hu : units32 w < 65520 * 2 ^ 149) : (decompose32 w).E.toNat ≤ 142 := by
  by_contra hE
  have hge : 2 ^ 23 * 2 ^ (143 - 1) ≤ units32 w := le_units32_of_le_exponent (by decide) (by omega)
  omega

/-- Magnitude 65520 is halfway from the largest finite magnitude word, which is odd, to the infinity pattern. -/
theorem low_fp16Encode_le_of_lt {w : Word32} (hu : units32 w < 65520 * 2 ^ 149) :
    ((fp16Encode w).extractLsb 14 0).toNat ≤ 0x7BFF := by
  have hhalfway := (fp16Encode_roundsToEven (exponent_le_142_of_lt hu)).succ_le_iff_of_odd gridUnits_strictMono
    (n := 0x7BFF) (by decide)
  rw [gridUnits_infinity, gridUnits_largest] at hhalfway
  omega

theorem low_fp16Encode_of_le {w : Word32} (hfinite : (decompose32 w).E ≠ 0xFF#8) (hu : 65520 * 2 ^ 149 ≤ units32 w) :
    (fp16Encode w).extractLsb 14 0 = 0x7C00#15 := by
  apply BitVec.eq_of_toNat_eq
  rcases Nat.lt_or_ge (decompose32 w).E.toNat 143 with hlt | hge
  · have hround := fp16Encode_roundsToEven (w := w) (by omega)
    have hhalfway := hround.succ_le_iff_of_odd gridUnits_strictMono (n := 0x7BFF) (by decide)
    have hmax := hround.le_succ_of_lt gridUnits_strictMono (n := 0x7BFF) (by
      rw [gridUnits_infinity]
      exact units32_lt_of_exponent_lt (n := 143) hlt)
    rw [gridUnits_infinity, gridUnits_largest] at hhalfway
    exact Nat.le_antisymm hmax (hhalfway.mpr (by omega))
  · have hrebias := rebias_eq (decompose32 w).E
    rw [fp16Encode_of_overflow hfinite (by omega), sign_append_fields]
    exact low_sign_append _ (m := 0x7C00) le_rfl

theorem natCast_le_abs_number32_iff (w : Word32) (n : Nat) : (n : ℚ) ≤ |number32 w| ↔ n * 2 ^ 149 ≤ units32 w := by
  rw [abs_number32_eq, le_div_iff₀ (by positivity)]
  exact_mod_cast Iff.rfl

theorem natCast_lt_abs_number32_iff (w : Word32) (n : Nat) : (n : ℚ) < |number32 w| ↔ n * 2 ^ 149 < units32 w := by
  rw [abs_number32_eq, lt_div_iff₀ (by positivity)]
  exact_mod_cast Iff.rfl

theorem le_abs_65520_iff (w : Word32) : 65520 ≤ |number32 w| ↔ 65520 * 2 ^ 149 ≤ units32 w :=
  natCast_le_abs_number32_iff w 65520

theorem lt_abs_65504_iff (w : Word32) : 65504 < |number32 w| ↔ 65504 * 2 ^ 149 < units32 w :=
  natCast_lt_abs_number32_iff w 65504

theorem le_units32_65520_iff (w : Word32) : 65520 * 2 ^ 149 ≤ units32 w ↔ 0x477FF000 ≤ (w.extractLsb 30 0).toNat := by
  have hword : packedUnits 23 0x477FF000 = 65520 * 2 ^ 149 :=
    packedUnits_normal (E := 142) (f := 0x7FF000) (by decide) (by decide)
  rw [units32_eq_packedUnits, ← hword, (packedUnits_strictMono 23).le_iff_le]

theorem lt_units32_65504_iff (w : Word32) : 65504 * 2 ^ 149 < units32 w ↔ 0x477FE000 < (w.extractLsb 30 0).toNat := by
  have hword : packedUnits 23 0x477FE000 = 65504 * 2 ^ 149 :=
    packedUnits_normal (E := 142) (f := 0x7FE000) (by decide) (by decide)
  rw [units32_eq_packedUnits, ← hword, (packedUnits_strictMono 23).lt_iff_lt]

theorem low_fp16Encode_eq_infinity_iff {w : Word32} (hfinite : (decompose32 w).E ≠ 0xFF#8) :
    (fp16Encode w).extractLsb 14 0 = 0x7C00#15 ↔ 65520 * 2 ^ 149 ≤ units32 w := by
  refine ⟨fun hlow => ?_, low_fp16Encode_of_le hfinite⟩
  by_contra hu
  have hle := low_fp16Encode_le_of_lt (not_le.mp hu)
  rw [hlow] at hle
  exact absurd hle (by decide)

/-- Settles O31: by number it is `low_fp16Encode_eq_infinity_iff`; by word, both bounds are magnitudes of words and the
magnitude rises with the word; from 65504 on and below 65520 the result is neither below `0x7BFF` nor above it. -/
theorem overflowBoundaryIs65520 : Obligations.OverflowBoundaryIs65520 := by
  unfold Obligations.OverflowBoundaryIs65520
  refine ⟨fun s => ⟨delivers_encode_iff.mpr (by decide), delivers_encode_iff.mpr (by decide)⟩, fun w hfinite => ?_⟩
  have hE : (decompose32 w).E.toNat ≤ 254 := exponent_le_254 hfinite
  have hfields := low_eq_fields32 w
  have hF := (decompose32 w).F.isLt
  simp only [← not_le (a := (65520 : ℚ)), le_abs_65520_iff, lt_abs_65504_iff, le_units32_65520_iff,
    lt_units32_65504_iff]
  refine ⟨(low_fp16Encode_eq_infinity_iff hfinite).trans (le_units32_65520_iff w), by omega, by omega,
    fun habove hbelow => ?_⟩
  rw [← lt_units32_65504_iff] at habove
  rw [← le_units32_65520_iff, not_le] at hbelow
  apply BitVec.eq_of_toNat_eq
  exact Nat.le_antisymm (low_fp16Encode_le_of_lt hbelow)
    ((fp16Encode_roundsToEven (exponent_le_142_of_lt hbelow)).le_of_le gridUnits_strictMono
      (gridUnits_largest.trans_le habove.le))

/-! ### Correct rounding (R97) -/

theorem abs_units_sub (u v : Nat) : |(u : ℚ) / 2 ^ 149 - v / 2 ^ 149| = (((u : Int) - v).natAbs : ℚ) / 2 ^ 149 := by
  rw [← sub_div, abs_div, abs_of_pos (by positivity : (0 : ℚ) < 2 ^ 149), Nat.cast_natAbs]
  push_cast
  rfl

/-- Settles O30: below 65520 the magnitude is rounded on the grid of the magnitude words, and the finite ones are all
on it. -/
theorem encodeIsCorrectlyRounded : Obligations.EncodeIsCorrectlyRounded := by
  unfold Obligations.EncodeIsCorrectlyRounded
  intro w hfinite
  refine ⟨fp16Encode_sign w, fun hbig => low_fp16Encode_of_le hfinite ((le_abs_65520_iff w).mp hbig), fun hsmall => ?_⟩
  rw [← not_le, le_abs_65520_iff, not_le] at hsmall
  have hm := low_fp16Encode_le_of_lt hsmall
  refine ⟨_, hm, BitVec.eq_of_toNat_eq (bits15_toNat (by omega)).symm, fun m' hm' => ?_⟩
  have hpos : (0 : ℚ) < 2 ^ 149 := by positivity
  rw [abs_number32_eq, number16_ofNat (by omega), number16_ofNat (by omega), abs_units_sub, abs_units_sub,
    div_le_div_iff_of_pos_right hpos, div_left_inj' hpos.ne', Nat.cast_le, Nat.cast_inj]
  exact (fp16Encode_roundsToEven (exponent_le_142_of_lt hsmall)).nearest gridUnits_strictMono m'

/-! ### The subnormal range (R95) -/

theorem abs_sub_rne_le_half (n : Nat) {k : Nat} (hk : 1 ≤ k) : |(n : ℚ) / 2 ^ k - rne n k| ≤ 1 / 2 := by
  obtain ⟨hle, -⟩ := rne_error_le_half n hk
  rw [abs_sub_rne, div_le_div_iff_of_pos_right two_pos, div_le_one (by positivity)]
  exact_mod_cast hle

theorem subnormal_range_iff (w : Word32) :
    (2 ^ (-25 : ℤ) ≤ |number32 w| ∧ |number32 w| < 2 ^ (-14 : ℤ)) ∧ (decompose32 w).E ≠ 0xFF#8 ↔
      102 ≤ (decompose32 w).E.toNat ∧ (decompose32 w).E.toNat ≤ 112 := by
  constructor
  · rintro ⟨⟨hge, hlt⟩, -⟩
    by_contra hE
    rcases Nat.lt_or_ge (decompose32 w).E.toNat 102 with hsmall | hlo
    · exact hge.not_gt (abs_number32_lt_of_exponent_le (n := 101) (by omega))
    · exact hlt.not_ge (le_abs_number32_of_le_exponent (n := 113) (by decide) (by omega))
  · rintro ⟨hlo, hhi⟩
    refine ⟨⟨le_abs_number32_of_le_exponent (n := 102) (by decide) hlo, abs_number32_lt_of_exponent_le hhi⟩, ?_⟩
    exact BitVec.toNat_ne_iff_ne.mp (show _ ≠ 0xFF by omega)

/-- In the subnormal range the magnitude, in units of `2 ^ -24`, is the shifted significand of R64 before rounding. -/
theorem abs_number32_div_of_subnormal {w : Word32} (hlo : 102 ≤ (decompose32 w).E.toNat)
    (hhi : (decompose32 w).E.toNat ≤ 112) : |number32 w| / 2 ^ (-24 : ℤ) =
      (significand (decompose32 w).F : ℚ) / 2 ^ subnormalShift (rebias (decompose32 w).E) := by
  have hE0 : (decompose32 w).E ≠ 0#8 := BitVec.toNat_ne_iff_ne.mp (show (decompose32 w).E.toNat ≠ 0 by omega)
  have hrebias := rebias_eq (decompose32 w).E
  rw [abs_number32_of_exponent_ne_zero hE0, mul_div_assoc, ← zpow_sub₀ two_ne_zero, div_eq_mul_inv, ← zpow_natCast,
    ← zpow_neg, subnormalShift_cast (by omega)]
  congr 2
  omega

/-- Settles O32: the integer is `rne` of the shifted significand. -/
theorem subnormalRangeRoundsToTheNearestMultiple : Obligations.SubnormalRangeRoundsToTheNearestMultiple := by
  unfold Obligations.SubnormalRangeRoundsToTheNearestMultiple
  have hsmallest : number16 0x0400#16 = gridUnits 0x0400 / 2 ^ 149 := number16_ofNat (by decide)
  rw [gridUnits_of_le (by decide)] at hsmallest
  refine ⟨subnormal_range_iff, fun w hlo hhi => ?_, hsmallest.trans (by norm_num), hsmallest.trans (by norm_num)⟩
  have hrebias := rebias_eq (decompose32 w).E
  have hlo' : 102 ≤ (decompose32 w).E.toNat := hlo
  have hhi' : (decompose32 w).E.toNat ≤ 112 := hhi
  have hsh : 14 ≤ subnormalShift (rebias (decompose32 w).E) := by rw [subnormalShift]; omega
  obtain ⟨-, -, heven⟩ := rneIsNearestWithTiesToEven (significand (decompose32 w).F)
    (subnormalShift (rebias (decompose32 w).E)) (by omega)
  refine ⟨_, rne_significand_le (decompose32 w).F hsh, ?_, ?_⟩
  · rw [fp16Encode_of_subnormal rfl (by omega) (by omega)]
    exact BitVec.extractLsb'_append_eq_right
  · rw [abs_number32_div_of_subnormal hlo hhi]
    exact ⟨abs_sub_rne_le_half _ (by omega), heven⟩

/-! ### Order (R92) -/

theorem number32_fp16Decode {h : Word16} (hones : (decompose16 h).E ≠ 0x1F#5) :
    number32 (fp16Decode h) = number16 h := by
  rw [number32_eq_signed, number16_eq_signed, fp16Decode_sign, units32_fp16Decode hones]
  push_cast
  ring

theorem units32_lt_of_finite_result {w : Word32} (hfinite : (decompose32 w).E ≠ 0xFF#8)
    (hresult : (decompose16 (fp16Encode w)).E ≠ 0x1F#5) : units32 w < 65520 * 2 ^ 149 := by
  by_contra hu
  have hlow : (fp16Encode w).extractLsb 14 0 = (0x7C00#16).extractLsb 14 0 :=
    low_fp16Encode_of_le hfinite (not_lt.mp hu)
  exact hresult (decompose16_of_low_eq hlow).1

theorem units16_fp16Encode_mono {x y : Word32} (hle : units32 x ≤ units32 y) (hy : units32 y < 65520 * 2 ^ 149) :
    units16 (fp16Encode x) ≤ units16 (fp16Encode y) := by
  rw [units16_eq_packedUnits, units16_eq_packedUnits]
  exact (packedUnits_strictMono 10).monotone
    ((fp16Encode_roundsToEven (exponent_le_142_of_lt (hle.trans_lt hy))).mono gridUnits_strictMono
      (fp16Encode_roundsToEven (exponent_le_142_of_lt hy)) hle)

/-- What keeps the order of magnitudes keeps the order of signed numbers: zero lies between two of different signs. -/
theorem signed_le_of_lt {a b : Bool} {x y x' y' : ℚ} (hx : 0 ≤ x) (hy : 0 ≤ y) (hx' : 0 ≤ x') (hy' : 0 ≤ y')
    (hmono : x < y → x' ≤ y') (hmono' : y < x → y' ≤ x') (hlt : (-1) ^ a.toNat * x < (-1) ^ b.toNat * y) :
    (-1) ^ a.toNat * x' ≤ (-1) ^ b.toNat * y' := by
  cases a with
  | false =>
    cases b with
    | false => simpa using hmono (by simpa using hlt)
    | true =>
      simp only [Bool.toNat_false, Bool.toNat_true, pow_zero, pow_one] at hlt
      linarith
  | true =>
    cases b with
    | false =>
      simp only [Bool.toNat_false, Bool.toNat_true, pow_zero, pow_one]
      linarith
    | true => simpa using hmono' (by simpa using hlt)

/-- Settles O33: rounding keeps the order of magnitudes (`units16_fp16Encode_mono`) and the sign. -/
theorem encodeIsMonotone : Obligations.EncodeIsMonotone := by
  unfold Obligations.EncodeIsMonotone
  intro x y hx hy hx' hy' hlt
  have hmono {v w : Word32} (hw : units32 w < 65520 * 2 ^ 149)
      (hvw : (units32 v : ℚ) / 2 ^ 149 < units32 w / 2 ^ 149) :
      (units16 (fp16Encode v) : ℚ) / 2 ^ 24 ≤ units16 (fp16Encode w) / 2 ^ 24 := by
    rw [div_lt_div_iff_of_pos_right (by positivity), Nat.cast_lt] at hvw
    have hle := units16_fp16Encode_mono hvw.le hw
    gcongr
  rw [number32_eq_signed, number32_eq_signed] at hlt
  rw [number32_fp16Decode hx', number32_fp16Decode hy', number16_eq_signed, number16_eq_signed, fp16Encode_sign,
    fp16Encode_sign]
  exact signed_le_of_lt (by positivity) (by positivity) (by positivity) (by positivity)
    (hmono (units32_lt_of_finite_result hy hy')) (hmono (units32_lt_of_finite_result hx hx')) hlt

/-! ### Exact inputs (R100) -/

theorem low_le_of_exponent_ne_ones {h : Word16} (hones : (decompose16 h).E ≠ 0x1F#5) :
    (h.extractLsb 14 0).toNat ≤ 0x7BFF := by
  have hE := (decompose16 h).E.isLt
  have hne : (decompose16 h).E.toNat ≠ 0x1F := BitVec.toNat_ne_iff_ne.mpr hones
  have hF := (decompose16 h).F.isLt
  rw [low_eq_fields16]
  omega

/-- A magnitude on the grid is not rounded. -/
theorem low_fp16Encode_of_exact {w : Word32} {h : Word16} (hones : (decompose16 h).E ≠ 0x1F#5)
    (hexact : units32 w = units16 h * 2 ^ 125) : (fp16Encode w).extractLsb 14 0 = h.extractLsb 14 0 := by
  rw [units16_mul_eq_gridUnits] at hexact
  have hmax : units32 w ≤ 65504 * 2 ^ 149 := by
    rw [hexact, ← gridUnits_largest]
    exact gridUnits_strictMono.monotone (low_le_of_exponent_ne_ones hones)
  exact BitVec.eq_of_toNat_eq ((fp16Encode_roundsToEven (exponent_le_142_of_lt (by omega))).eq_of_eq
    gridUnits_strictMono hexact)

theorem units32_eq_of_number32_eq {w : Word32} {h : Word16} (heq : number32 w = number16 h) :
    units32 w = units16 h * 2 ^ 125 := by
  have habs : |number32 w| = |number16 h| := congrArg _ heq
  rw [abs_number32_eq, abs_number16_eq_gridUnits, div_left_inj' (by positivity), Nat.cast_inj] at habs
  rw [habs, units16_mul_eq_gridUnits]

theorem sign_factor_injective : Function.Injective fun a : Bool => (-1 : ℚ) ^ a.toNat := by
  intro a b h
  cases a with
  | false =>
    cases b with
    | false => rfl
    | true => norm_num at h
  | true =>
    cases b with
    | false => norm_num at h
    | true => rfl

theorem sign_eq_of_number32_eq {w : Word32} {h : Word16} (heq : number32 w = number16 h) (hne : number16 h ≠ 0) :
    w.getLsbD 31 = h.getLsbD 15 := by
  have hunits := units32_eq_of_number32_eq heq
  have hmagnitude : (units32 w : ℚ) / 2 ^ 149 = units16 h / 2 ^ 24 := by
    rw [hunits]
    push_cast
    ring
  have hpos : (0 : ℚ) < units16 h / 2 ^ 24 := by
    rw [← abs_number16_eq]
    exact abs_pos.mpr hne
  rw [number32_eq_signed, number16_eq_signed, hmagnitude] at heq
  exact sign_factor_injective (mul_right_cancel₀ hpos.ne' heq)

/-- Settles O46: equal numbers are equal magnitudes, which `low_fp16Encode_of_exact` speaks of; a number that is not zero
has one sign. -/
theorem exactInputsAreNotRounded : Obligations.ExactInputsAreNotRounded := by
  unfold Obligations.ExactInputsAreNotRounded
  intro w h _ hones heq
  refine ⟨fun hne => ?_, fun hzero => ?_⟩
  · exact word16_ext ((fp16Encode_sign w).trans (sign_eq_of_number32_eq heq hne))
      (low_fp16Encode_of_exact hones (units32_eq_of_number32_eq heq))
  · have hw : units32 w = units16 0#16 * 2 ^ 125 :=
      units32_eq_of_number32_eq (heq.trans (hzero.trans (by simp [number16_eq, units16, decompose16])))
    have hlow : (fp16Encode w).extractLsb 14 0 = 0#15 := low_fp16Encode_of_exact (by decide) hw
    rw [fp16Encode_eq, ← fp16Encode_low, hlow]
    rfl

end Sys2Proof.Machine
end

section
/-! PROOFS. The two operations composed (spec/43_laws.md R90, R91, R98): encoding what was decoded, which words each of
them gives, both laws through the bench, and the special values. -/

namespace Sys2Proof.Machine

/-! ### Encoding what was decoded (R90, R91) -/

theorem fp16Encode_fp16Decode_of_finite {h : Word16} (hones : (decompose16 h).E ≠ 0x1F#5) :
    fp16Encode (fp16Decode h) = h :=
  word16_ext (by rw [fp16Encode_sign, fp16Decode_sign]) (low_fp16Encode_of_exact hones (units32_fp16Decode hones))

theorem quietedFraction_widenFraction (F : BitVec 10) :
    quietedFraction (widenFraction F) = F ||| if F ≠ 0#10 then 0x200#10 else 0#10 := by
  have hkept : (widenFraction F).extractLsb 22 13 = F := BitVec.extractLsb'_append_eq_left
  simp only [quietedFraction, hkept, ne_eq, widenFraction_eq_zero_iff]

theorem fp16Encode_fp16Decode_of_ones {h : Word16} (hones : (decompose16 h).E = 0x1F#5) :
    fp16Encode (fp16Decode h) = compose16 { decompose16 h with
      F := (decompose16 h).F ||| if (decompose16 h).F ≠ 0#10 then 0x200#10 else 0#10 } := by
  rw [fp16Encode_of_infinityOrNaN (by rw [decompose32_fp16Decode_of_ones hones]), decompose32_fp16Decode_of_ones hones,
    quietedFraction_widenFraction, compose16, hones]

theorem compose16_or_quietBit (h : Word16) :
    compose16 { decompose16 h with F := (decompose16 h).F ||| 0x200#10 } = h ||| 0x0200#16 := by
  calc compose16 { decompose16 h with F := (decompose16 h).F ||| 0x200#10 } =
        ((decompose16 h).s ||| 0#1) ++ ((decompose16 h).E ||| 0#5) ++ ((decompose16 h).F ||| 0x200#10) := by
        rw [BitVec.or_zero, BitVec.or_zero]
        rfl
    _ = compose16 (decompose16 h) ||| (0#1 ++ 0#5 ++ 0x200#10) := by
        rw [compose16, BitVec.or_append, BitVec.or_append]
    _ = h ||| 0x0200#16 := by
        rw [compose16_decompose16]
        rfl

/-- DECODE and then ENCODE give every word back, a NaN with its quiet bit set. -/
theorem fp16Encode_fp16Decode (h : Word16) : fp16Encode (fp16Decode h) =
    if (decompose16 h).E = 0x1F#5 ∧ (decompose16 h).F ≠ 0#10 then h ||| 0x0200#16 else h := by
  by_cases hones : (decompose16 h).E = 0x1F#5
  · rw [fp16Encode_fp16Decode_of_ones hones]
    by_cases hF : (decompose16 h).F = 0#10
    · rw [if_neg (not_not.mpr hF), if_neg fun hnan => hnan.2 hF, BitVec.or_zero, compose16_decompose16]
    · rw [if_pos hF, if_pos ⟨hones, hF⟩, compose16_or_quietBit]
  · rw [fp16Encode_fp16Decode_of_finite hones, if_neg fun hnan => hones hnan.1]

/-! ### Signalling NaNs -/

/-- A signalling NaN of binary16 (R53). -/
abbrev IsSignalingNaN16 (b : Word16) : Prop :=
  b.extractLsb 14 10 = 0x1F#5 ∧ b.extractLsb 9 0 ≠ 0#10 ∧ b.getLsbD 9 = false

theorem or_quietBit_of_quiet {h : Word16} (hquiet : h.getLsbD 9 = true) : h ||| 0x0200#16 = h := by
  apply BitVec.eq_of_getLsbD_eq
  intro i hi
  rw [BitVec.getLsbD_or, show 0x0200#16 = BitVec.twoPow 16 9 by decide, BitVec.getLsbD_twoPow]
  by_cases h9 : 9 = i
  · subst h9
    rw [hquiet, Bool.true_or]
  · rw [decide_eq_false h9, Bool.and_false, Bool.or_false]

theorem fp16Encode_fp16Decode_of_not_signaling {b : Word16} (hb : ¬ IsSignalingNaN16 b) :
    fp16Encode (fp16Decode b) = b := by
  rw [fp16Encode_fp16Decode]
  split_ifs with hnan
  · have hquiet : b.getLsbD 9 ≠ false := fun hq => hb ⟨hnan.1, hnan.2, hq⟩
    exact or_quietBit_of_quiet (eq_true_of_ne_false hquiet)
  · rfl

theorem fp16Encode_fp16Decode_of_nan {b : Word16} (hones : b.extractLsb 14 10 = 0x1F#5)
    (hF : b.extractLsb 9 0 ≠ 0#10) : fp16Encode (fp16Decode b) = b ||| 0x0200#16 := by
  rw [fp16Encode_fp16Decode]
  exact if_pos ⟨hones, hF⟩

/-- The signalling NaNs are the numbers `0x7C01` to `0x7DFF`, and those with bit 15 set. -/
theorem isSignalingNaN16_iff (b : Word16) : IsSignalingNaN16 b ↔
    0x7C01 ≤ b.toNat ∧ b.toNat ≤ 0x7DFF ∨ 0xFC01 ≤ b.toNat ∧ b.toNat ≤ 0xFDFF := by
  have hlt := b.isLt
  have hE : b.extractLsb 14 10 = 0x1F#5 ↔ b.toNat / 2 ^ 10 % 2 ^ 5 = 0x1F := by
    rw [← BitVec.toNat_inj]
    exact iff_of_eq (congrArg (· = 0x1F) (decompose16_E_toNat b))
  have hF : b.extractLsb 9 0 = 0#10 ↔ b.toNat % 2 ^ 10 = 0 := by
    rw [← BitVec.toNat_inj]
    exact iff_of_eq (congrArg (· = 0) (decompose16_F_toNat b))
  have hquiet : b.getLsbD 9 = false ↔ b.toNat / 2 ^ 9 % 2 ≠ 1 := by
    rw [BitVec.getLsbD, Nat.testBit_eq_decide_div_mod_eq, decide_eq_false_iff_not]
  rw [IsSignalingNaN16, hE, ne_eq, hF, hquiet]
  omega

theorem card_word16 : Nat.card Word16 = 65536 :=
  (Nat.card_congr (BitVec.equivFin (m := 16)).toEquiv).trans (Nat.card_fin _)

theorem ncard_signalingNaN16 : {b : Word16 | IsSignalingNaN16 b}.ncard = 1022 := by
  have himage : BitVec.toNat '' {b : Word16 | IsSignalingNaN16 b} =
      (Finset.Icc 0x7C01 0x7DFF ∪ Finset.Icc 0xFC01 0xFDFF : Finset Nat) := by
    ext n
    simp only [Set.mem_image, Set.mem_ofPred_eq, isSignalingNaN16_iff, Finset.coe_union, Finset.coe_Icc, Set.mem_union,
      Set.mem_Icc]
    constructor
    · rintro ⟨b, hb, rfl⟩
      exact hb
    · intro hn
      have hto : (BitVec.ofNat 16 n).toNat = n := Nat.mod_eq_of_lt (by omega)
      exact ⟨BitVec.ofNat 16 n, by rwa [hto], hto⟩
  have hdisjoint : Disjoint (Finset.Icc 0x7C01 0x7DFF) (Finset.Icc 0xFC01 0xFDFF) :=
    Finset.disjoint_left.mpr fun n hn hn' => by
      rw [Finset.mem_Icc] at hn hn'
      omega
  rw [← Set.ncard_image_of_injective _ BitVec.toNat_injective, himage, Set.ncard_coe_finset,
    Finset.card_union_of_disjoint hdisjoint, Nat.card_Icc, Nat.card_Icc]

/-- Settles O44: only a signalling NaN has a quiet bit to set; 1022 of the 65536 words are signalling NaNs. -/
theorem roundTripOfEveryWordButSignalingNaN : Obligations.RoundTripOfEveryWordButSignalingNaN := by
  unfold Obligations.RoundTripOfEveryWordButSignalingNaN
  refine ⟨fun b hb => fp16Encode_fp16Decode_of_not_signaling hb, ?_⟩
  have hcount : {b : Word16 | IsSignalingNaN16 b}ᶜ.ncard = 64514 :=
    Set.ncard_compl_of_ncard_eq_add _ (by rw [card_word16, ncard_signalingNaN16])
  exact hcount

/-! ### The words ENCODE gives -/

theorem decompose16_fp16Encode_of_ones {w : Word32} (hones : (decompose32 w).E = 0xFF#8) : decompose16 (fp16Encode w) =
    { s := (decompose32 w).s, E := 0x1F#5, F := quietedFraction (decompose32 w).F } := by
  have hword : fp16Encode w = compose16
      { s := (decompose32 w).s, E := 0x1F#5, F := quietedFraction (decompose32 w).F } :=
    fp16Encode_of_infinityOrNaN hones
  rw [hword, decompose16_compose16]

theorem quietedFraction_zero : quietedFraction 0#23 = 0#10 := by decide

theorem quietedFraction_top {F : BitVec 23} (hF : F ≠ 0#23) : (quietedFraction F).getLsbD 9 = true := by
  rw [quietedFraction, if_pos hF, BitVec.getLsbD_or]
  exact Bool.or_true _

theorem quietBit16_fp16Encode_of_nan {w : Word32} (hones : (decompose32 w).E = 0xFF#8)
    (hF : (decompose32 w).F ≠ 0#23) : (fp16Encode w).getLsbD 9 = true := by
  have htop : (fp16Encode w).getLsbD 9 = (decompose16 (fp16Encode w)).F.getLsbD 9 := (decompose16_F_top _).symm
  rw [htop, decompose16_fp16Encode_of_ones hones, quietedFraction_top hF]

theorem low_fp16Encode_le_of_finite {w : Word32} (hfinite : (decompose32 w).E ≠ 0xFF#8) :
    ((fp16Encode w).extractLsb 14 0).toNat ≤ 0x7C00 := by
  rcases Nat.lt_or_ge (units32 w) (65520 * 2 ^ 149) with hlt | hge
  · exact (low_fp16Encode_le_of_lt hlt).trans (by decide)
  · rw [low_fp16Encode_of_le hfinite hge]
    decide

theorem fp16Encode_not_signaling (w : Word32) : ¬ IsSignalingNaN16 (fp16Encode w) := by
  rintro ⟨hones, hF, hquiet⟩
  have hones' : (decompose16 (fp16Encode w)).E = 0x1F#5 := hones
  have hF' : (decompose16 (fp16Encode w)).F ≠ 0#10 := hF
  by_cases hw : (decompose32 w).E = 0xFF#8
  · have hinfinity : (decompose32 w).F = 0#23 := by
      by_contra hnan
      exact absurd hquiet (by rw [quietBit16_fp16Encode_of_nan hw hnan]; decide)
    rw [decompose16_fp16Encode_of_ones hw, hinfinity] at hF'
    exact hF' quietedFraction_zero
  · have hlow := low_fp16Encode_le_of_finite hw
    have hne : (decompose16 (fp16Encode w)).F.toNat ≠ 0 := BitVec.toNat_ne_iff_ne.mpr hF'
    rw [low_of_exponent_ones hones'] at hlow
    omega

/-- Settles O45: ENCODE gives no signalling NaN, and gives every other word back from its decoded word. -/
theorem encodeNeverGivesASignalingNaN : Obligations.EncodeNeverGivesASignalingNaN := by
  unfold Obligations.EncodeNeverGivesASignalingNaN
  refine ⟨fun b hones hF _ => fp16Encode_fp16Decode_of_nan hones hF, fun b => ⟨?_, fun hb => ?_⟩, fun w => ?_⟩
  · rintro ⟨w, rfl⟩
    exact fp16Encode_not_signaling w
  · exact ⟨fp16Decode b, fp16Encode_fp16Decode_of_not_signaling hb⟩
  · exact fp16Encode_fp16Decode_of_not_signaling (fp16Encode_not_signaling w)

/-! ### The words DECODE gives (R98) -/

theorem widenFraction_injective : Function.Injective widenFraction := by
  intro F G h
  have hto := congrArg BitVec.toNat h
  rw [widenFraction_toNat, widenFraction_toNat] at hto
  exact BitVec.eq_of_toNat_eq (by omega)

/-- A finite word is the ENCODE of its decoded word; an infinity or NaN has its whole fraction there. -/
theorem fp16Decode_injective : Function.Injective fp16Decode := by
  intro h g heq
  by_cases hh : (decompose16 h).E = 0x1F#5
  · have hg : (decompose16 g).E = 0x1F#5 := by
      by_contra hg
      apply decompose32_fp16Decode_exponent_ne_ones hg
      rw [← heq, decompose32_fp16Decode_of_ones hh]
    have hfields := congrArg decompose32 heq
    rw [decompose32_fp16Decode_of_ones hh, decompose32_fp16Decode_of_ones hg, Fields32.mk.injEq] at hfields
    obtain ⟨hs, -, hF⟩ := hfields
    rw [← compose16_decompose16 h, ← compose16_decompose16 g, compose16, compose16, hs, hh, hg,
      widenFraction_injective hF]
  · have hg : (decompose16 g).E ≠ 0x1F#5 := fun hg => by
      apply decompose32_fp16Decode_exponent_ne_ones hh
      rw [heq, decompose32_fp16Decode_of_ones hg]
    rw [← fp16Encode_fp16Decode_of_finite hh, heq, fp16Encode_fp16Decode_of_finite hg]

/-- R98's set of 32-bit words, by exponent and fraction. -/
def DecodedImage (E F : Nat) : Prop :=
  F % 2 ^ 13 = 0 ∧ (E = 0xFF ∨ (E = 0 ∧ F = 0) ∨ (113 ≤ E ∧ E ≤ 142) ∨
    (103 ≤ E ∧ E ≤ 112 ∧ F % 2 ^ (23 - (E - 103)) = 0))

theorem decodedImage_iff (v : Word32) :
    (v.extractLsb 12 0 = 0#13 ∧ (v.extractLsb 30 23 = 0xFF#8 ∨ v.extractLsb 30 0 = 0#31 ∨
      (113 ≤ (v.extractLsb 30 23).toNat ∧ (v.extractLsb 30 23).toNat ≤ 142) ∨
      (103 ≤ (v.extractLsb 30 23).toNat ∧ (v.extractLsb 30 23).toNat ≤ 112 ∧
        (v.extractLsb 22 0).toNat % 2 ^ (23 - ((v.extractLsb 30 23).toNat - 103)) = 0))) ↔
      DecodedImage (decompose32 v).E.toNat (decompose32 v).F.toNat := by
  have htail : (v.extractLsb 12 0).toNat = (decompose32 v).F.toNat % 2 ^ 13 := by
    rw [decompose32_F_toNat, BitVec.extractLsb_toNat, Nat.shiftRight_zero]
    omega
  have hzero : v.extractLsb 30 0 = 0#31 ↔ (decompose32 v).E.toNat = 0 ∧ (decompose32 v).F.toNat = 0 := by
    rw [← BitVec.toNat_inj, low_eq_fields32, BitVec.toNat_zero]
    omega
  rw [hzero, ← BitVec.toNat_inj, htail, ← BitVec.toNat_inj]
  rfl

/-- A nonzero finite result has exponent `x + 112` and, where `x` is 0 or less, as many low zeros as its operand's
leading zeros made. -/
theorem decodedImage_of_decode (h : Word16) :
    DecodedImage (decompose32 (fp16Decode h)).E.toNat (decompose32 (fp16Decode h)).F.toNat := by
  by_cases hones : (decompose16 h).E = 0x1F#5
  · rw [decompose32_fp16Decode_of_ones hones]
    exact ⟨by rw [widenFraction_toNat]; omega, .inl rfl⟩
  by_cases hzero : (decompose16 h).E = 0#5 ∧ (decompose16 h).F = 0#10
  · rw [decompose32_fp16Decode, hzero.1, hzero.2, decodedFields_zero]
    exact ⟨rfl, .inr (.inl ⟨rfl, rfl⟩)⟩
  obtain ⟨x, F, hlo, hhi, hfields, hunits⟩ := decompose32_fp16Decode_of_finite_nonzero hones hzero
  have hx := decodedExponent_toNat (x := x) (by omega) (by omega)
  rw [hfields]
  change DecodedImage (decodedExponent x).toNat (widenFraction F).toNat
  rw [widenFraction_toNat]
  refine ⟨by omega, .inr (.inr ?_)⟩
  rcases lt_or_ge 0 x with hpos | hneg
  · exact .inl (by omega)
  refine .inr ⟨by omega, by omega, ?_⟩
  obtain ⟨k, hk⟩ : ∃ k : Nat, k = (x + 9).toNat := ⟨_, rfl⟩
  have hsplit : 2 ^ 10 = 2 ^ (10 - k) * 2 ^ k := by rw [← pow_add, Nat.sub_add_cancel (by omega)]
  have hsum : units16 h * 2 ^ (10 - k) = 2 ^ 10 + F.toNat := by
    apply Nat.eq_of_mul_eq_mul_right (Nat.two_pow_pos k)
    rw [Nat.mul_assoc, ← hsplit, hunits, hk]
  have hdvd : 2 ^ (10 - k) ∣ F.toNat :=
    (Nat.dvd_add_right (pow_dvd_pow 2 (Nat.sub_le 10 k))).mp (Dvd.intro_left _ hsum)
  have hexponent : 23 - ((decodedExponent x).toNat - 103) = (10 - k) + 13 := by omega
  rw [hexponent, pow_add]
  exact Nat.mod_eq_zero_of_dvd (Nat.mul_dvd_mul_right hdvd _)

/-- A magnitude on the grid is decoded from the word it encodes to. -/
theorem fp16Decode_fp16Encode_of_grid {v : Word32} {m : Nat} (hm : m ≤ 0x7BFF) (hunits : units32 v = gridUnits m) :
    fp16Decode (fp16Encode v) = v := by
  have hmax : gridUnits m ≤ 65504 * 2 ^ 149 := gridUnits_largest ▸ gridUnits_strictMono.monotone hm
  have hlow := (fp16Encode_roundsToEven (w := v) (exponent_le_142_of_lt (by omega))).eq_of_eq gridUnits_strictMono
    hunits
  have hones : (decompose16 (fp16Encode v)).E ≠ 0x1F#5 := fun hones => by
    rw [low_of_exponent_ones hones] at hlow
    omega
  refine word32_ext_of_units (by rw [fp16Decode_sign, fp16Encode_sign]) ?_
  rw [units32_fp16Decode hones, units16_mul_eq_gridUnits, hlow, hunits]

theorem widenFraction_extractLsb {F : BitVec 23} (hF : F.toNat % 2 ^ 13 = 0) :
    widenFraction (F.extractLsb 22 13) = F := by
  apply BitVec.eq_of_toNat_eq
  rw [widenFraction_toNat, extractLsb_22_13_toNat, keptBits_eq]
  omega

theorem exists_decode_of_decodedImage {v : Word32}
    (hv : DecodedImage (decompose32 v).E.toNat (decompose32 v).F.toNat) : ∃ h, fp16Decode h = v := by
  have hlt := (decompose32 v).F.isLt
  obtain ⟨htail, hones | ⟨hE, hF⟩ | ⟨hlo, hhi⟩ | ⟨hlo, hhi, hdvd⟩⟩ := hv
  · refine ⟨compose16 { s := (decompose32 v).s, E := 0x1F#5, F := (decompose32 v).F.extractLsb 22 13 }, ?_⟩
    have hE : (decompose32 v).E = 0xFF#8 := BitVec.eq_of_toNat_eq hones
    rw [← compose32_decompose32 (fp16Decode _), decompose32_fp16Decode_of_ones (by rw [decompose16_compose16]),
      decompose16_compose16, widenFraction_extractLsb htail, ← hE]
    exact compose32_decompose32 v
  · refine ⟨_, fp16Decode_fp16Encode_of_grid (m := 0) (by decide) ?_⟩
    rw [units32_of_exponent_zero (BitVec.eq_of_toNat_eq hE), hF, gridUnits_of_le (by decide), Nat.zero_mul]
  · have hE0 : (decompose32 v).E ≠ 0#8 := BitVec.toNat_ne_iff_ne.mp (show (decompose32 v).E.toNat ≠ 0 by omega)
    refine ⟨_, fp16Decode_fp16Encode_of_grid (m := ((decompose32 v).E.toNat - 112) * 2 ^ 10 +
      (decompose32 v).F.toNat / 2 ^ 13) (by omega) ?_⟩
    have hsig : significand (decompose32 v).F = (2 ^ 10 + (decompose32 v).F.toNat / 2 ^ 13) * 2 ^ 13 := by
      rw [significand]
      omega
    have hexponent : (decompose32 v).E.toNat - 1 = (decompose32 v).E.toNat - 112 + 111 := by omega
    rw [units32_of_exponent_ne_zero hE0, gridUnits_normal (by omega) (by omega), hsig, hexponent]
  · have hE0 : (decompose32 v).E ≠ 0#8 := BitVec.toNat_ne_iff_ne.mp (show (decompose32 v).E.toNat ≠ 0 by omega)
    obtain ⟨m, hm⟩ : 2 ^ (23 - ((decompose32 v).E.toNat - 103)) ∣ significand (decompose32 v).F :=
      (Nat.dvd_add_right (pow_dvd_pow 2 (Nat.sub_le 23 _))).mpr (Nat.dvd_of_mod_eq_zero hdvd)
    have hunit : 2 ^ (23 - ((decompose32 v).E.toNat - 103)) * 2 ^ ((decompose32 v).E.toNat - 1) = 2 ^ 125 := by
      rw [← pow_add]
      congr 1
      omega
    have hmax : m < 2 ^ 10 := by
      by_contra hm10
      have hge : 2 ^ 14 * 2 ^ 10 ≤ significand (decompose32 v).F :=
        hm ▸ Nat.mul_le_mul (Nat.pow_le_pow_right two_pos (by omega)) (not_lt.mp hm10)
      rw [significand] at hge
      omega
    refine ⟨_, fp16Decode_fp16Encode_of_grid (m := m) (by omega) ?_⟩
    rw [units32_of_exponent_ne_zero hE0, gridUnits_of_le hmax.le, hm, Nat.mul_right_comm, hunit, Nat.mul_comm]

/-- Settles O43: the image by fields; an injective function has as many results as operands. -/
theorem decodeIsInjectiveWithItsImage : Obligations.DecodeIsInjectiveWithItsImage := by
  unfold Obligations.DecodeIsInjectiveWithItsImage
  refine ⟨fun _ _ heq => fp16Decode_injective heq, fun v => ?_, ?_⟩
  · rw [decodedImage_iff]
    constructor
    · rintro ⟨h, rfl⟩
      exact decodedImage_of_decode h
    · exact exists_decode_of_decodedImage
  · rw [Set.ncard_range_of_injective fp16Decode_injective, card_word16]

/-! ### Through the bench -/

/-- Settles O47: the run delivers the outcome of its requests, whose second word is `fp16Encode_fp16Decode`. -/
theorem decodeThenEncodeThroughTheBench : Obligations.DecodeThenEncodeThroughTheBench := by
  unfold Obligations.DecodeThenEncodeThroughTheBench
  intro s u v h hp
  obtain ⟨t, hrun, hend, hres⟩ := runDeliversTheOutcome s [.f32 (fp16Decode h), .f16 (fp16Encode (fp16Decode h))]
    (by rw [hp]; rfl)
  rw [hp] at hrun
  refine ⟨t, hrun, hend, hres.trans ?_⟩
  rw [fp16Encode_fp16Decode]
  rfl

/-- Settles O48: the third word is the first encoded again, which `fp16Encode_not_signaling` leaves as it is. -/
theorem encodeDecodeEncodeThroughTheBench : Obligations.EncodeDecodeEncodeThroughTheBench := by
  unfold Obligations.EncodeDecodeEncodeThroughTheBench
  intro s u v x w hp
  obtain ⟨t, hrun, hend, hres⟩ := runDeliversTheOutcome s
    [.f16 (fp16Encode w), .f32 (fp16Decode (fp16Encode w)), .f16 (fp16Encode (fp16Decode (fp16Encode w)))]
    (by rw [hp]; rfl)
  rw [hp] at hrun
  rw [fp16Encode_fp16Decode_of_not_signaling (fp16Encode_not_signaling w)] at hres
  exact ⟨t, hrun, hend, hres⟩

/-! ### Special values and constants (R93, R96, R101) -/

/-- A NaN encodes to a quiet NaN. -/
theorem fp16Encode_of_nan {w : Word32} (hones : w.extractLsb 30 23 = 0xFF#8) (hF : w.extractLsb 22 0 ≠ 0#23) :
    (fp16Encode w).extractLsb 14 10 = 0x1F#5 ∧ (fp16Encode w).extractLsb 9 0 ≠ 0#10 ∧
      (fp16Encode w).getLsbD 9 = true := by
  have hquiet : (fp16Encode w).getLsbD 9 = true := quietBit16_fp16Encode_of_nan hones hF
  have hE : (decompose16 (fp16Encode w)).E = 0x1F#5 := by rw [decompose16_fp16Encode_of_ones hones]
  have hfraction : (decompose16 (fp16Encode w)).F ≠ 0#10 := fun hzero => by
    have htop : (decompose16 (fp16Encode w)).F.getLsbD 9 = true := (decompose16_F_top _).trans hquiet
    rw [hzero] at htop
    exact absurd htop (by decide)
  exact ⟨hE, hfraction, hquiet⟩

/-- A NaN decodes to a NaN. -/
theorem fp16Decode_of_nan {h : Word16} (hones : h.extractLsb 14 10 = 0x1F#5) (hF : h.extractLsb 9 0 ≠ 0#10) :
    (fp16Decode h).extractLsb 30 23 = 0xFF#8 ∧ (fp16Decode h).extractLsb 22 0 ≠ 0#23 := by
  have hfields := decompose32_fp16Decode_of_ones hones
  have hE : (decompose32 (fp16Decode h)).E = 0xFF#8 := by rw [hfields]
  have hfraction : (decompose32 (fp16Decode h)).F ≠ 0#23 := by
    rw [hfields]
    exact (widenFraction_eq_zero_iff _).not.mpr hF
  exact ⟨hE, hfraction⟩

/-- Settles O34: the two infinities are single words; the NaNs are `fp16Encode_of_nan` and `fp16Decode_of_nan`. -/
theorem specialValuesStaySpecial : Obligations.SpecialValuesStaySpecial := by
  unfold Obligations.SpecialValuesStaySpecial
  exact ⟨fun _ => ⟨delivers_encode_iff.mpr (by decide), delivers_encode_iff.mpr (by decide)⟩,
    fun _ hones hF => fp16Encode_of_nan hones hF, fun _ hones hF => fp16Decode_of_nan hones hF⟩

/-- Settles O35: what is delivered depends on the operand alone, and each constant's operand is a single word. -/
theorem namedConstantsAreDelivered : Obligations.NamedConstantsAreDelivered := by
  unfold Obligations.NamedConstantsAreDelivered
  refine ⟨fun s w hones hF => ⟨_, delivers_encode_iff.mpr rfl, fp16Encode_of_nan hones hF⟩, fun s => ?_⟩
  simp only [delivers_encode_iff, delivers_decode_iff]
  decide

end Sys2Proof.Machine
end

section
/-! PROOFS. Exceptions (spec/60_exceptions.md): an evaluation always completes, since its outcome is a next state in
every state of the bench (`exec_eq`). -/

namespace Sys2Proof.Machine

/-- No evaluation faults. -/
theorem exec_ne_fault (i : Instr) (s : State) (f : Fault) : exec i s ≠ .fault f := by
  rw [exec_eq]
  exact nofun

/-- No evaluation is refused. -/
theorem exec_ne_refused (i : Instr) (s : State) (r : Refusal) : exec i s ≠ .refused r := by
  rw [exec_eq]
  exact nofun

/-- Settles O9: every evaluation ends in `afterEvaluation`, and `Fault` has no constructor. -/
theorem noEvaluationRaisesAnException : Obligations.NoEvaluationRaisesAnException := by
  unfold Obligations.NoEvaluationRaisesAnException
  exact ⟨fun i s => ⟨⟨afterEvaluation i s, exec_eq i s⟩, exec_ne_fault i s, exec_ne_refused i s⟩, nofun⟩

end Sys2Proof.Machine
end

section
/-! PROOFS. Registered blocks (spec/70_reset_and_hazards.md R120): what the registers hold after power-up takes up
exactly the first `LATENCY` places of the output (`clocks_eq`), so every later word is the function of an input. -/

namespace Sys2Proof.Machine

/-- One output word per clock. -/
theorem clocks_length {α β : Type} (f : α → β) (stages : List β) (xs : List α) :
    (clocks f stages xs).length = xs.length := by
  simp [clocks_eq]

/-- An input's word leaves the block once the registers that stood before it have been shifted out. -/
theorem clocks_getElem?_add_length {α β : Type} {f : α → β} {stages : List β} {xs : List α} {k : Nat} {x : α}
    (hx : xs[k]? = some x) (hk : k + stages.length < xs.length) :
    (clocks f stages xs)[k + stages.length]? = some (f x) := by
  have hpast : stages.reverse.length ≤ k + stages.length := by simp
  rw [clocks_eq, List.getElem?_take_of_lt hk, List.getElem?_append_right hpast]
  simp [hx]

/-- Settles O17: both blocks are `clocks` from a list of `n` registers, whatever they hold. -/
theorem registeredBlocksDeliverTheSameWordsLater : Obligations.RegisteredBlocksDeliverTheSameWordsLater := by
  unfold Obligations.RegisteredBlocksDeliverTheSameWordsLater
  refine ⟨fun o n xs => ⟨clocks_length _ _ xs, fun k w hw hk => ?_⟩,
    fun o n xs => ⟨clocks_length _ _ xs, fun k h hh hk => ?_⟩⟩
  · have hdelivered := clocks_getElem?_add_length (f := fp16Encode) (stages := powerUpEncoder o n) hw (by simpa using hk)
    rwa [powerUpEncoder_length] at hdelivered
  · have hdelivered := clocks_getElem?_add_length (f := fp16Decode) (stages := powerUpDecoder o n) hh (by simpa using hk)
    rwa [powerUpDecoder_length] at hdelivered

end Sys2Proof.Machine
end

section
/-! PROOFS. Raw words (spec/30_encoding.md section 3): the raw words that decode are the words of the ports, and
`decode` and `encode` go between them and the operations without losing or moving a bit. -/

namespace Sys2Proof

theorem PortWord.raw_nbits (pw : PortWord) : pw.raw.nbits = pw.raw.block.inWidth := by
  cases pw with
  | onEncoder w => rfl
  | onDecoder h => rfl

theorem PortWord.raw_bits_lt (pw : PortWord) : pw.raw.bits < 2 ^ pw.raw.nbits := by
  cases pw with
  | onEncoder w => exact w.isLt
  | onDecoder h => exact h.isLt

/-- A word on an input port is an operand of the port's own operation, every bit in its place (R34, R35): the slices
of a word's number are, by definition, the fields `decompose` cuts from the word. -/
theorem decode_raw (pw : PortWord) : decode pw.raw = .ok (select pw) := by
  rw [decode, if_neg (not_not.mpr pw.raw_nbits), if_neg pw.raw_bits_lt.not_ge]
  cases pw with
  | onEncoder w => exact congrArg (fun x => Except.ok (Instr.encode x)) (compose32_decompose32 w)
  | onDecoder h => exact congrArg (fun x => Except.ok (Instr.decode x)) (compose16_decompose16 h)

/-- The word of the operation a port word selects is that port word. -/
theorem encode_select (pw : PortWord) : encode (select pw) = pw.raw := by
  cases pw with
  | onEncoder w =>
    have hbits := compose32_toNat (decompose32 w)
    rw [compose32_decompose32] at hbits
    simp only [select, encode, PortWord.raw, Nat.shiftLeft_eq, hbits]
  | onDecoder h =>
    have hbits := compose16_toNat (decompose16 h)
    rw [compose16_decompose16] at hbits
    simp only [select, encode, PortWord.raw, Nat.shiftLeft_eq, hbits]

/-- Each operation is selected by presenting its operand to its block. -/
theorem select_surjective : Function.Surjective select
  | .encode w => ⟨.onEncoder w, rfl⟩
  | .decode h => ⟨.onDecoder h, rfl⟩

/-- A whole word of its port is a word on that port. -/
theorem exists_raw_eq {r : RawWord} (hwidth : r.nbits = r.block.inWidth) (hbits : r.bits < 2 ^ r.nbits) :
    ∃ pw : PortWord, pw.raw = r := by
  obtain ⟨block, nbits, bits⟩ := r
  obtain rfl : nbits = block.inWidth := hwidth
  cases block with
  | encoder => exact ⟨.onEncoder (BitVec.ofNatLT bits hbits), rfl⟩
  | decoder => exact ⟨.onDecoder (BitVec.ofNatLT bits hbits), rfl⟩

/-- What decodes is a word on a port, and it decodes to the operation that word selects. -/
theorem decode_eq_ok_iff {r : RawWord} {i : Instr} :
    decode r = .ok i ↔ ∃ pw : PortWord, pw.raw = r ∧ select pw = i := by
  constructor
  · intro hdecode
    obtain ⟨hwidth, hbits⟩ := (exists_decode_eq_ok_iff r).mp ⟨i, hdecode⟩
    obtain ⟨pw, rfl⟩ := exists_raw_eq hwidth hbits
    exact ⟨pw, rfl, Except.ok.inj ((decode_raw pw).symm.trans hdecode)⟩
  · rintro ⟨pw, rfl, rfl⟩
    exact decode_raw pw

/-- Settles O18: an operation is selected by a port word, which is its encoding. -/
theorem decodeOfEncodeIsTheInstruction : Obligations.DecodeOfEncodeIsTheInstruction := by
  unfold Obligations.DecodeOfEncodeIsTheInstruction
  intro i
  obtain ⟨pw, rfl⟩ := select_surjective i
  rw [encode_select, decode_raw]

/-- Settles O19: what decodes is a port word, and `encode_select` gives it back. -/
theorem encodeOfDecodeIsTheWord : Obligations.EncodeOfDecodeIsTheWord := by
  unfold Obligations.EncodeOfDecodeIsTheWord
  intro r i hdecode
  obtain ⟨pw, rfl, rfl⟩ := decode_eq_ok_iff.mp hdecode
  exact encode_select pw

/-! ### Words numbered as in the opcode table -/

/-- The number of a 32-bit word, read as 32 bits, is that word on an encoder. -/
theorem decodeTableWord_toNat32 (w : Word32) : decodeTableWord 32 w.toNat = some (.encode w) :=
  congrArg Except.toOption (decode_raw (.onEncoder w))

/-- The number of a 16-bit word, read as 16 bits, is that word on a decoder. -/
theorem decodeTableWord_toNat16 (h : Word16) : decodeTableWord 16 h.toNat = some (.decode h) :=
  congrArg Except.toOption (decode_raw (.onDecoder h))

/-- Settles O21: each number is the one its word has. -/
theorem writtenOutWordsDecode : Obligations.WrittenOutWordsDecode := by
  unfold Obligations.WrittenOutWordsDecode
  exact ⟨decodeTableWord_toNat32 0xC77FF000#32, decodeTableWord_toNat32 0x3F800000#32,
    decodeTableWord_toNat16 0x7BFF#16, decodeTableWord_toNat16 0xFC01#16⟩

end Sys2Proof
end

section
/-! PROOFS. A step of the bench (spec/10_state.md section 3): which instruction it runs, when there is none, and the
invariant it keeps. -/

namespace Sys2Proof.Machine

/-! ### The instruction a step runs (R18, R34) -/

/-- Settles O4: a port word decodes to the operation it selects, which `step_of_presented` evaluates. -/
theorem stepRunsTheDecodedInstruction : Obligations.StepRunsTheDecodedInstruction := by
  unfold Obligations.StepRunsTheDecodedInstruction
  intro s st rest pw i hp hw hdecode
  obtain rfl : select pw = i := Except.ok.inj ((decode_raw pw).symm.trans hdecode)
  rw [step_of_presented hp hw, exec_eq, evaluatedAt]

/-- Placing an operation's word puts its request first, for the block now addressed. -/
theorem withFetchWord_of_decodeTableWord {nbits w : Nat} {i : Instr} (h : decodeTableWord nbits w = some i)
    (s : State) : s.withFetchWord nbits w = { s with pending := ⟨s.target, requestOf i⟩ :: s.pending } := by
  rw [State.withFetchWord, h]
  cases i with
  | encode w => rfl
  | decode h => rfl

/-- Settles O6: the placed request is evaluated and taken off the list again, on the block that was addressed. -/
theorem placedWordIsTheOneThatRuns : Obligations.PlacedWordIsTheOneThatRuns := by
  unfold Obligations.PlacedWordIsTheOneThatRuns
  intro s nbits w i h
  rw [withFetchWord_of_decodeTableWord h, step_requestOf rfl, exec_eq, evaluatedAt]

/-! ### No evaluation to make -/

theorem step_of_pending_nil {s : State} (hp : s.pending = []) : step s = .next s := by
  simp [step, State.fetch, hp]

theorem step_of_not_presented {s : State} {st : Stimulus} {rest : List Stimulus} (hp : s.pending = st :: rest)
    (hw : st.request.presented s.lastResult = none) : step s = .refused .previousResultMissing := by
  simp [step, State.fetch, hp, hw]

/-- ENCODE `%` presents no word unless the line before delivered one of 32 bits (R36). -/
theorem presented_encode_previous_eq_none {prev : Option OutWord} (h : ∀ w, prev ≠ some (.f32 w)) :
    (Request.encode .previous).presented prev = none := by
  rcases prev with _ | (_ | w)
  · rfl
  · rfl
  · exact absurd rfl (h w)

/-- DECODE `%` presents no word unless the line before delivered one of 16 bits (R36). -/
theorem presented_decode_previous_eq_none {prev : Option OutWord} (h : ∀ x, prev ≠ some (.f16 x)) :
    (Request.decode .previous).presented prev = none := by
  rcases prev with _ | (x | _)
  · rfl
  · exact absurd rfl (h x)
  · rfl

/-- Settles O5: an empty list ends the run, and a `%` without its word is refused. -/
theorem stepWithoutAnEvaluation : Obligations.StepWithoutAnEvaluation := by
  unfold Obligations.StepWithoutAnEvaluation
  exact ⟨fun s hp => step_of_pending_nil hp,
    fun s u rest hp h => step_of_not_presented hp (presented_encode_previous_eq_none h),
    fun s u rest hp h => step_of_not_presented hp (presented_decode_previous_eq_none h)⟩

/-! ### The invariant -/

/-- Settles O1: no port is driven and nothing is pending. -/
theorem resetMeetsTheInvariant : Obligations.ResetMeetsTheInvariant := by
  unfold Obligations.ResetMeetsTheInvariant
  exact ⟨⟨.nil, nofun⟩, ⟨.nil, nofun⟩, rfl⟩

/-- In a bound list the first `%` is bound by what came before, and the others by the lines of the list. -/
theorem boundAll_cons_iff {prev : Option Block} {r : Request} {rest : List Request} :
    boundAll prev (r :: rest) = true ↔ r.bound prev = true ∧ boundAll (some r.block) rest = true := by
  rw [boundAll, Bool.and_eq_true]

/-- Where the invariant holds the next request presents a word. -/
theorem State.Inv.exists_presented {s : State} (hs : s.Inv) {st : Stimulus} {rest : List Stimulus}
    (hp : s.pending = st :: rest) : ∃ pw, st.request.presented s.lastResult = some pw := by
  obtain ⟨-, -, hbound⟩ := hs
  rw [hp, List.map_cons] at hbound
  obtain ⟨hfirst, -⟩ := boundAll_cons_iff.mp hbound
  rw [← Option.isSome_iff_exists, presented_isSome]
  exact hfirst

/-- An evaluation keeps the invariant: it drives a port by `Drive.write`, and delivers a word of the width that a `%`
after its request may stand for. -/
theorem evaluatedAt_inv {s : State} (hs : s.Inv) {st : Stimulus} {rest : List Stimulus} {pw : PortWord}
    (hp : s.pending = st :: rest) (hw : st.request.presented s.lastResult = some pw) :
    (evaluatedAt st.unit (select pw) rest s).Inv := by
  obtain ⟨hencoders, hdecoders, hbound⟩ := hs
  rw [hp, List.map_cons] at hbound
  obtain ⟨-, hrest⟩ := boundAll_cons_iff.mp hbound
  obtain ⟨hencoders', hdecoders'⟩ := afterEvaluation_drives_wf (select pw)
    (s := { s with pending := rest, target := st.unit }) hencoders hdecoders
  refine ⟨hencoders', hdecoders', ?_⟩
  rw [evaluatedAt_lastResult, Option.map_some, presented_block hw, evaluatedAt_pending]
  exact hrest

/-- Settles O3: the refusal is for a `%` that stands for no word, and the invariant leaves none. -/
theorem stepAnswersWhereTheInvariantHolds : Obligations.StepAnswersWhereTheInvariantHolds := by
  unfold Obligations.StepAnswersWhereTheInvariantHolds
  intro s hs
  cases hp : s.pending with
  | nil => exact ⟨s, step_of_pending_nil hp⟩
  | cons st rest =>
    obtain ⟨pw, hw⟩ := hs.exists_presented hp
    exact ⟨_, step_of_presented hp hw⟩

/-- Settles O2: a step that answers is idle or one evaluation. -/
theorem stepKeepsTheInvariant : Obligations.StepKeepsTheInvariant := by
  unfold Obligations.StepKeepsTheInvariant
  intro s t hs hstep
  cases hp : s.pending with
  | nil =>
    obtain rfl : s = t := Host.Outcome.next.inj ((step_of_pending_nil hp).symm.trans hstep)
    exact hs
  | cons st rest =>
    obtain ⟨pw, hw⟩ := hs.exists_presented hp
    obtain rfl := Host.Outcome.next.inj ((step_of_presented hp hw).symm.trans hstep)
    exact evaluatedAt_inv hs hp hw

end Sys2Proof.Machine
end

section
/-! PROOFS. The finite binary16 magnitudes in the order of their words (spec/30_encoding.md section 2). -/

namespace Sys2Proof.Machine

/-- Among the words without a sign bit a larger word is a larger number: the grid of magnitudes rises. -/
theorem number16_ofNat_lt {m m' : Nat} (hlt : m < m') (hm' : m' < 2 ^ 15) :
    number16 (BitVec.ofNat 16 m) < number16 (BitVec.ofNat 16 m') := by
  have hunits : gridUnits m < gridUnits m' := gridUnits_strictMono hlt
  rw [number16_ofNat (hlt.trans hm'), number16_ofNat hm']
  gcongr

/-- The exponent field is all ones from `0x7C00` on, where the infinity stands, and nowhere below. -/
theorem exponent_ne_ones_iff (h : Word16) :
    (decompose16 h).E ≠ 0x1F#5 ↔ (h.extractLsb 14 0).toNat ≤ 0x7BFF := by
  refine ⟨low_le_of_exponent_ne_ones, fun hlow hones => ?_⟩
  rw [low_of_exponent_ones hones] at hlow
  omega

theorem number16_largest : number16 0x7BFF#16 = 65504 := by
  have hunits : number16 0x7BFF#16 = gridUnits 0x7BFF / 2 ^ 149 := number16_ofNat (by decide)
  rw [hunits, gridUnits_largest]
  norm_num

/-- Settles O53: the words up to `0x7BFF` have no sign bit, so `number16_ofNat_lt` orders them. -/
theorem finiteMagnitudesRiseWithTheirWords : Obligations.FiniteMagnitudesRiseWithTheirWords := by
  unfold Obligations.FiniteMagnitudesRiseWithTheirWords
  exact ⟨fun m m' hlt hle => number16_ofNat_lt hlt (by omega), exponent_ne_ones_iff, number16_largest⟩

end Sys2Proof.Machine
end
